-- ==== Sys2Proof/Word.lean ====
section
/-! DEFINITION. The word and byte types of the block (00_scope.md R8): every host register and every run count is 64
bits wide, a buffer byte is 8 bits. -/

namespace Sys2Proof

/-- A host register, a run count or a command word: 64 bits, unsigned (R8). -/
abbrev Word := BitVec 64

/-- A byte of the buffer BUF (R8). -/
abbrev Byte := BitVec 8

end Sys2Proof
end

