-- ==== Sys2Proof/Config.lean ====
section
/-! DEFINITION. The implementation parameters of 00_scope.md R7. They are fixed for one instance of the block and no
rule changes them. The spec leaves them OPEN (92_eei_decisions.md D2 - D5), so the model carries them beside the state
(log entry 1) and every statement about every state is a statement about every instance. -/

namespace Sys2Proof

/-- The order in which a physical bus puts the bytes of a 64-bit register (R52): part of BUS_BINDING. -/
inductive ByteOrder where
  | littleEndian
  | bigEndian
deriving DecidableEq, Repr

/-- BUS_BINDING (R7): base address, bus width and byte order of the physical register bus. No rule reads it
(R7, U2 of 93_implementation_defined.md); log entry 11. -/
structure BusBinding where
  baseAddress : Nat
  widthBits : Nat
  byteOrder : ByteOrder
deriving DecidableEq, Repr

/-- The four parameters of R7. -/
structure Params where
  /-- NUM_SLOTS, the number of run-list slots. -/
  numSlots : Nat
  /-- MAX_RUNS, the greatest number of runs one slot can hold. -/
  maxRuns : Nat
  /-- BUF_BYTES, the size of the byte buffer in bytes. -/
  bufBytes : Nat
  /-- BUS_BINDING, which no rule reads. -/
  busBinding : BusBinding
deriving DecidableEq, Repr

/-- The legal values of the parameters (R7). -/
abbrev Params.Legal (p : Params) : Prop :=
  (1 ≤ p.numSlots ∧ p.numSlots ≤ 16) ∧ (1 ≤ p.maxRuns ∧ p.maxRuns ≤ 2 ^ 32) ∧ (1 ≤ p.bufBytes ∧ p.bufBytes ≤ 2 ^ 32)

/-- The values R7 uses in the spec's own examples; DESIGN CHOICE for `State.reset` (log entry 2). -/
def Params.specExample : Params :=
  { numSlots := 2, maxRuns := 1024, bufBytes := 256,
    busBinding := { baseAddress := 0, widthBits := 64, byteOrder := .littleEndian } }

end Sys2Proof
end

