-- ==== Sys2Proof/Syntax.lean ====
section
/-! DEFINITION. The ten commands of the block, one constructor per row of spec/opcode_table.json (30_encoding.md R72).
The only operand a command word carries is SLOT (R70, R76); every other operand is a whole register that the command
reads when it runs. -/

namespace Sys2Proof

/-- The SLOT field of a command word, bits 11:8: an unsigned slot index 0 .. 15 (R70, R76). -/
abbrev SlotIndex := BitVec 4

/-- A command of the block (R72). -/
inductive Instr where
  /-- OPCODE 0x01: make the slot a new list with one run of value 0 (R100). -/
  | create (slot : SlotIndex)
  /-- OPCODE 0x02: release the slot (R102). -/
  | destroy (slot : SlotIndex)
  /-- OPCODE 0x03: append the run ARG_A (R104). -/
  | append (slot : SlotIndex)
  /-- OPCODE 0x04: remove and return the first run (R106). -/
  | popfront (slot : SlotIndex)
  /-- OPCODE 0x05: return the number of runs (R108). -/
  | size (slot : SlotIndex)
  /-- OPCODE 0x06: return the total bit count (R110). -/
  | total (slot : SlotIndex)
  /-- OPCODE 0x10: append the bits of a source window to the list (R130). -/
  | encode (slot : SlotIndex)
  /-- OPCODE 0x11: write the list's bits to a destination window and drain the list (R140). -/
  | decode (slot : SlotIndex)
  /-- OPCODE 0x20: write the list's wire form to a destination window (R160). -/
  | serialize (slot : SlotIndex)
  /-- OPCODE 0x21: make the slot the list that a source window describes (R170). -/
  | deserialize (slot : SlotIndex)
deriving DecidableEq, Repr

end Sys2Proof
end

