-- ==== Sys2Proof/WellFormed.lean ====
section
/-! DEFINITION. Well-formed commands of an instance: the SLOT of a legal command word is below NUM_SLOTS
(10_state.md R22, 30_encoding.md R74). -/

namespace Sys2Proof

/-- The slot a command works on (R70). -/
def Instr.slot : Instr → SlotIndex
  | .create s => s
  | .destroy s => s
  | .append s => s
  | .popfront s => s
  | .size s => s
  | .total s => s
  | .encode s => s
  | .decode s => s
  | .serialize s => s
  | .deserialize s => s

/-- A command is well formed for an instance when its slot exists there: SLOT < NUM_SLOTS (R74). -/
abbrev Instr.WellFormed (i : Instr) (p : Params) : Prop := i.slot.toNat < p.numSlots

end Sys2Proof
end

