-- ==== Sys2Proof/Decode.lean ====
section
/-! DEFINITION. The command word (30_encoding.md R70 - R76): its fields, the decoder of R74, total on every 64-bit
value and rejecting by name, and the encoder written from the same table R72. -/

namespace Sys2Proof

/-- Why a command word is illegal: the three checks of R74. All three raise the same error IllegalCommand, so a host
cannot tell them apart (R74). -/
inductive DecodeError where
  /-- Bits 63:12 are not all 0. -/
  | reservedBits
  /-- OPCODE is not in the table R72. -/
  | unassignedOpcode
  /-- SLOT ≥ NUM_SLOTS. -/
  | slotOutOfRange
deriving DecidableEq, Repr

/-- OPCODE, bits 7:0 of a command word (R70). -/
def opcodeField (w : Word) : BitVec 8 := w.extractLsb' 0 8

/-- SLOT, bits 11:8 of a command word (R70). -/
def slotField (w : Word) : SlotIndex := w.extractLsb' 8 4

/-- RSVD, bits 63:12 of a command word (R70). -/
def reservedField (w : Word) : BitVec 52 := w.extractLsb' 12 52

/-- The opcode map of R72, read from a full 8-bit OPCODE value (R73). -/
def commandOfOpcode (op : BitVec 8) (slot : SlotIndex) : Option Instr :=
  if op = 0x01 then some (.create slot)
  else if op = 0x02 then some (.destroy slot)
  else if op = 0x03 then some (.append slot)
  else if op = 0x04 then some (.popfront slot)
  else if op = 0x05 then some (.size slot)
  else if op = 0x06 then some (.total slot)
  else if op = 0x10 then some (.encode slot)
  else if op = 0x11 then some (.decode slot)
  else if op = 0x20 then some (.serialize slot)
  else if op = 0x21 then some (.deserialize slot)
  else none

/-- The part of R74 that does not depend on NUM_SLOTS: the reserved bits and the opcode. -/
def decodeFields (w : Word) : Except DecodeError Instr :=
  if reservedField w ≠ 0 then .error .reservedBits
  else
    match commandOfOpcode (opcodeField w) (slotField w) with
    | none => .error .unassignedOpcode
    | some i => .ok i

/-- Command decode (R74) in an instance with parameters `p`. -/
def decode (p : Params) (w : Word) : Except DecodeError Instr :=
  match decodeFields w with
  | .error e => .error e
  | .ok i => if i.slot.toNat < p.numSlots then .ok i else .error .slotOutOfRange

/-- The OPCODE value of each command (R72). -/
def Instr.opcode : Instr → BitVec 8
  | .create _ => 0x01
  | .destroy _ => 0x02
  | .append _ => 0x03
  | .popfront _ => 0x04
  | .size _ => 0x05
  | .total _ => 0x06
  | .encode _ => 0x10
  | .decode _ => 0x11
  | .serialize _ => 0x20
  | .deserialize _ => 0x21

/-- The command word of a command, `0000…0000 ssss oooooooo` (R70), that is `(K << 8) | OPCODE` (R90). -/
def encode (i : Instr) : Word := i.slot.setWidth 64 <<< 8 ||| i.opcode.setWidth 64

/-- The 64-bit value of a table row: a command is exactly one command word (R71), and bits above it do not exist. -/
def tableWord (nbits w : Nat) : Word := BitVec.ofNat 64 (w % 2 ^ nbits)

/-- What the decoder reads from the word `w` of a row of spec/opcode_table.json. The slot check of R74 needs
NUM_SLOTS and is made when the command is issued, so it is no part of reading the word (log entry 9). -/
def decodeTableWord (nbits w : Nat) : Option Instr :=
  match decodeFields (tableWord nbits w) with
  | .ok i => some i
  | .error _ => none

end Sys2Proof
end

