-- ==== Sys2Proof/Machine/Bits.lean ====
section
/-! DEFINITION. Bits and bytes: numbers as bit strings, most significant bit first, and the bit stream of a byte
sequence (00_scope.md R9 - R11, 20_memory.md R51). A bit string is a list of Bools in stream order. -/

namespace Sys2Proof.Machine

/-- The bits `v[n-1], …, v[0]` of a number (R9). -/
def bitsOfNat : Nat → Nat → List Bool
  | 0, _ => []
  | n + 1, v => v.testBit n :: bitsOfNat n v

/-- The unsigned number that a bit string spells, first bit most significant (R9). -/
def natOfBits (q : List Bool) : Nat := q.foldl (fun acc b => 2 * acc + b.toNat) 0

/-- The bits of a byte in stream order: bit 7 first (R10). -/
def byteBits (b : Byte) : List Bool := bitsOfNat 8 b.toNat

/-- The bits of a 64-bit count from bit 63 down (R9). -/
def wordBits (w : Word) : List Bool := bitsOfNat 64 w.toNat

/-- The bit stream of a byte sequence: stream bit j is bit `7 - j mod 8` of byte `j div 8` (R10, R51). -/
def streamBits (bs : List Byte) : List Bool := bs.flatMap byteBits

/-- The byte whose bits from bit 7 down are the first 8 of `q`, 0 where `q` has ended. -/
def byteOfBits (q : List Bool) : Byte := BitVec.ofNat 8 (natOfBits ((q ++ List.replicate 8 false).take 8))

/-- `pack(q, n)`: the n bytes whose bit stream is `q` and then zeros (41_bitstream.md R142). -/
def pack : List Bool → Nat → List Byte
  | _, 0 => []
  | q, n + 1 => byteOfBits q :: pack (q.drop 8) n

/-- `ceil_div(a, b)` (R11). -/
def ceilDiv (a b : Nat) : Nat := (a + b - 1) / b

end Sys2Proof.Machine
end

