-- ==== Sys2Proof/Machine/State.lean ====
section
/-! DEFINITION. The state of the block (10_state.md R20), the host's transactions (R38) as the model's input, the reasons
a step can stop, and the state after reset (R44). Everything is plain data. -/

namespace Sys2Proof.Machine

/-- The eight host registers (R21). -/
inductive Register where
  | cmd
  | argA
  | argB
  | argC
  | argD
  | res0
  | res1
  | status
deriving DecidableEq, Repr

/-- A run-list slot (R30): `present = false` means that the slot holds no list. The polarity of the run at index i is
i mod 2 and is never stored (00_scope.md R13). -/
structure Slot where
  present : Bool
  runs : List Word
deriving DecidableEq, Repr

/-- The condition ABSENT of R32. -/
def Slot.absent : Slot := { present := false, runs := [] }

/-- The names R32 gives the conditions of a slot. -/
inductive SlotCondition where
  | absent
  | live
  | drained
deriving DecidableEq, Repr

/-- The buffer BUF (R34): the bytes that hold a value, by strictly rising address. An unlisted address holds no value:
nothing has written it since reset (R44, log entry 6). -/
abbrev Memory := List Host.Cell

/-- The canonical form of BUF: strictly rising addresses. No listed byte can equal what an unlisted address holds,
since that is no value at all. -/
abbrev Memory.wf (m : Memory) : Prop := m.Pairwise (fun x y => x.1 < y.1)

/-- The four host transactions (R38). Offsets and addresses are unbounded numbers, so every unmapped one is covered
(log entry 15). -/
inductive Transaction where
  | regWrite (off : Nat) (v : Word)
  | regRead (off : Nat)
  | bufWrite (a : Nat) (b : Byte)
  | bufRead (a : Nat)
deriving DecidableEq, Repr

/-- What can happen to the block from outside: a host transaction (R38) or the hardware reset input (70_reset_and_hazards.md
R230, log entry 5). -/
inductive Input where
  | transaction (t : Transaction)
  | reset
deriving DecidableEq, Repr

/-- What the host gets back from a transaction: the last column of R38. -/
inductive Reply where
  | nothing
  | word (v : Word)
  | byte (b : Byte)
deriving DecidableEq, Repr

/-- Why the MODEL stops. The block itself never stops (60_exceptions.md R213). -/
inductive Fault where
  /-- Raised by ENCODE, DESERIALIZE and BufRead when they read the BUF byte at `addr` and nothing has written it since
  reset (R44, U1 of 93_implementation_defined.md). Safe: the model stops where the hardware goes on with some byte. -/
  | unwrittenByte (addr : Nat)
  /-- Raised by the step for a transaction other than RegRead(STATUS) while STATUS.BUSY = 1 (R240, U3). Safe: no state
  that the block reaches has BUSY = 1. -/
  | busyAccess
deriving DecidableEq, Repr

/-- Why a command has no meaning. Every command has one, so nothing of the model raises this. -/
inductive Refusal where
  /-- The command with this mnemonic is not modelled yet. Raised by arms of `exec` alone. Safe: the model stops. -/
  | notModelled (mnemonic : String)
deriving DecidableEq, Repr

/-- The state (R20). `params`, `inputs` and `reply` are the model's own fields (log entries 1, 3, 4). -/
structure State where
  /-- The parameters of the instance (R7); no step changes them. -/
  params : Params
  /-- CMD, offset 0x00: the last value the host wrote to it (R22). -/
  cmd : Word
  /-- ARG_A, offset 0x08 (R23). -/
  argA : Word
  /-- ARG_B, offset 0x10 (R23). -/
  argB : Word
  /-- ARG_C, offset 0x18 (R23). -/
  argC : Word
  /-- ARG_D, offset 0x20 (R23). -/
  argD : Word
  /-- RES0, offset 0x28 (R24). -/
  res0 : Word
  /-- RES1, offset 0x30 (R24). -/
  res1 : Word
  /-- STATUS, offset 0x38 (R25). -/
  status : Word
  /-- L[0 .. NUM_SLOTS-1] (R30). -/
  slots : List Slot
  /-- BUF (R34). -/
  buf : Memory
  /-- The host transactions and resets still to come, next one first (R20, R26, R233). -/
  inputs : List Input
  /-- What the last transaction gave back to the host (R38). -/
  reply : Reply
deriving DecidableEq, Repr

/-- The state after reset of an instance with parameters `p` (R44): registers 0, every slot ABSENT, no BUF byte with a
value. The host has issued nothing yet (log entries 3, 4). -/
def State.resetOf (p : Params) : State :=
  { params := p, cmd := 0, argA := 0, argB := 0, argC := 0, argD := 0, res0 := 0, res1 := 0, status := 0,
    slots := List.replicate p.numSlots Slot.absent, buf := [], inputs := [], reply := .nothing }

/-- The state after reset (R44) of the instance with the spec's example parameters (R7; log entry 2). -/
def State.reset : State := State.resetOf Params.specExample

end Sys2Proof.Machine
end

