-- ==== Sys2Proof/Machine/Flags.lean ====
section
/-! DEFINITION. STATUS, the block's only condition state (10_state.md R25): the error codes of 60_exceptions.md R200
and the fields of the register. -/

namespace Sys2Proof.Machine

/-- The errors a command can report (R200). Code 0 is success and is no error; codes 8 to 15 are never reported. -/
inductive ErrorCode where
  | illegalCommand
  | noList
  | listEmpty
  | badAddress
  | allocationFailure
  | malformedInput
  /-- Code 7; no command raises it, because runLength 64 has an encoding (R203, log entry 14). -/
  | unrepresentableValue
deriving DecidableEq, Repr

/-- The code of an error (R200). -/
def ErrorCode.code : ErrorCode → Nat
  | .illegalCommand => 1
  | .noList => 2
  | .listEmpty => 3
  | .badAddress => 4
  | .allocationFailure => 5
  | .malformedInput => 6
  | .unrepresentableValue => 7

/-- The value an error leaves in STATUS: `zext_64(code(E))` (R40, R210). -/
def ErrorCode.statusWord (e : ErrorCode) : Word := BitVec.ofNat 64 e.code

/-- The value success leaves in STATUS (R40). -/
def successWord : Word := 0

/-- STATUS.ECODE, bits 3:0 (R25). -/
def State.ecode (s : State) : BitVec 4 := s.status.extractLsb' 0 4

/-- STATUS.BUSY, bit 63 (R25). -/
def State.busy (s : State) : Bool := s.status.getLsbD 63

end Sys2Proof.Machine
end

