-- ==== Sys2Proof/Machine/Ops.lean ====
section
/-! DEFINITION. The shared operations over BUF, the registers and the slots, and the frame every command runs in:
it computes its whole result first, and then either raises ONE error or commits ALL its writes (00_scope.md R12,
60_exceptions.md R210). -/

namespace Sys2Proof.Machine

/-! ## BUF (10_state.md R34, R42) -/

/-- The byte at an address, or none where nothing has written it since reset (R44). -/
def Memory.read : Memory → Nat → Option Byte
  | [], _ => none
  | (c, v) :: rest, a => if c = a then some v else Memory.read rest a

/-- Write one byte, keeping the canonical form. -/
def Memory.write : Memory → Nat → Byte → Memory
  | [], a, b => [(a, b)]
  | (c, v) :: rest, a, b =>
    if a < c then (a, b) :: (c, v) :: rest
    else if a = c then (a, b) :: rest
    else (c, v) :: Memory.write rest a b

/-- `MemRead(a, n)` (R12): the n bytes from address a, or the first address of them that holds no value. -/
def Memory.readBytes (m : Memory) : Nat → Nat → Except Nat (List Byte)
  | _, 0 => .ok []
  | a, n + 1 =>
    match m.read a with
    | none => .error a
    | some b =>
      match Memory.readBytes m (a + 1) n with
      | .error e => .error e
      | .ok bs => .ok (b :: bs)

/-- `MemWrite(a, len(bs), bs)` (R12). -/
def Memory.writeBytes : Memory → Nat → List Byte → Memory
  | m, _, [] => m
  | m, a, b :: bs => Memory.writeBytes (m.write a b) (a + 1) bs

/-! ## Registers (10_state.md R21) -/

/-- The byte offset of a register (R21). -/
def Register.offset : Register → Nat
  | .cmd => 0x00
  | .argA => 0x08
  | .argB => 0x10
  | .argC => 0x18
  | .argD => 0x20
  | .res0 => 0x28
  | .res1 => 0x30
  | .status => 0x38

/-- The register at an offset; no other offset is mapped (R21, R27). -/
def registerAt (off : Nat) : Option Register :=
  if off = 0x00 then some .cmd
  else if off = 0x08 then some .argA
  else if off = 0x10 then some .argB
  else if off = 0x18 then some .argC
  else if off = 0x20 then some .argD
  else if off = 0x28 then some .res0
  else if off = 0x30 then some .res1
  else if off = 0x38 then some .status
  else none

/-- `x[NAME]` (R12). -/
def State.readReg (s : State) : Register → Word
  | .cmd => s.cmd
  | .argA => s.argA
  | .argB => s.argB
  | .argC => s.argC
  | .argD => s.argD
  | .res0 => s.res0
  | .res1 => s.res1
  | .status => s.status

/-- `x[NAME] <- v` (R12). Who may write which register is the caller's rule. -/
def State.writeReg (s : State) (r : Register) (v : Word) : State :=
  match r with
  | .cmd => { s with cmd := v }
  | .argA => { s with argA := v }
  | .argB => { s with argB := v }
  | .argC => { s with argC := v }
  | .argD => { s with argD := v }
  | .res0 => { s with res0 := v }
  | .res1 => { s with res1 := v }
  | .status => { s with status := v }

/-- Write RES0 and RES1 together (R24). -/
def State.setResults (s : State) (r0 r1 : Word) : State := { s with res0 := r0, res1 := r1 }

/-- Write STATUS (R25). -/
def State.setStatus (s : State) (v : Word) : State := { s with status := v }

/-- Replace BUF. -/
def State.setBuf (s : State) (m : Memory) : State := { s with buf := m }

/-- Set what the host gets back (R38). -/
def State.setReply (s : State) (r : Reply) : State := { s with reply := r }

/-- Set the inputs still to come. -/
def State.setInputs (s : State) (is : List Input) : State := { s with inputs := is }

/-! ## Slots (10_state.md R30 - R33) -/

/-- `L[s]`. A command runs only with SLOT < NUM_SLOTS (30_encoding.md R74); beyond that there is no slot, which reads
as ABSENT (log entry 8). -/
def State.slotAt (s : State) (i : SlotIndex) : Slot := s.slots.getD i.toNat Slot.absent

/-- `L[s] <- v`. -/
def State.setSlot (s : State) (i : SlotIndex) (v : Slot) : State := { s with slots := s.slots.set i.toNat v }

/-- The condition of a slot (R32). -/
def Slot.condition (l : Slot) : SlotCondition :=
  if l.present then (if l.runs = [] then .drained else .live) else .absent

/-- The total bit count of a run list, an unbounded number (R33). -/
def totalBits (runs : List Word) : Nat := (runs.map BitVec.toNat).sum

/-! ## Errors (60_exceptions.md R210): the block's whole trap mechanism -/

/-- `raise E`: STATUS takes the code and nothing else changes. No state is saved, no handler runs and no mode changes;
there is no return from an error (R210, R212). -/
def raise (e : ErrorCode) (s : State) : Host.Outcome State Fault Refusal := .next (s.setStatus e.statusWord)

/-! ## Running a command (00_scope.md R12) -/

/-- Why a command ends before its `commit:` point: it raises an error of R200, or the model faults. -/
inductive Halt where
  | raise (e : ErrorCode)
  | fault (f : Fault)
deriving DecidableEq, Repr

/-- Everything a command writes after its `commit:` point besides STATUS: its slot, the bytes at ARG_C, RES0 and RES1.
`none` leaves the component as it is. -/
structure Effect where
  slot : Option Slot
  bytes : Option (List Byte)
  results : Option (Word × Word)
deriving DecidableEq, Repr

/-- The destination address DST of DECODE and SERIALIZE (10_state.md R23). -/
def State.dst (s : State) : Nat := s.argC.toNat

/-- Write the slot part of an effect. -/
def State.putSlot (s : State) (i : SlotIndex) : Option Slot → State
  | none => s
  | some l => s.setSlot i l

/-- Write the output bytes of an effect at DST (20_memory.md R55). -/
def State.putBytes (s : State) : Option (List Byte) → State
  | none => s
  | some bs => s.setBuf (s.buf.writeBytes s.dst bs)

/-- Write the result words of an effect (R24). -/
def State.putResults (s : State) : Option (Word × Word) → State
  | none => s
  | some (r0, r1) => s.setResults r0 r1

/-- The `commit:` point: all the writes of a command, and STATUS <- 0 with them (R12, R40). -/
def commit (i : SlotIndex) (e : Effect) (s : State) : State :=
  (((s.putSlot i e.slot).putBytes e.bytes).putResults e.results).setStatus successWord

/-- Run a command on slot `i` whose result is computed by `body`: all-or-nothing (R12, R40, R210). -/
def runCommand (i : SlotIndex) (body : State → Except Halt Effect) (s : State) : Host.Outcome State Fault Refusal :=
  match body s with
  | .ok e => .next (commit i e s)
  | .error (.raise e) => raise e s
  | .error (.fault f) => .fault f

end Sys2Proof.Machine
end

