-- ==== Sys2Proof/Machine/Operands.lean ====
section
/-! DEFINITION. Every operand form of the commands (30_encoding.md R76, 10_state.md R23, 20_memory.md R54, R55): the slot's
list, the value in ARG_A, the source window and the destination window. Each check reports its error in the order
60_exceptions.md R211 asks of the caller. -/

namespace Sys2Proof.Machine

/-- `VALUE = x[ARG_A]` (R76). -/
def State.value (s : State) : Word := s.argA

/-- `SRC = x[ARG_A]` (R76). -/
def State.src (s : State) : Nat := s.argA.toNat

/-- `SRC_LEN = x[ARG_B]` (R76). -/
def State.srcLen (s : State) : Nat := s.argB.toNat

/-- `DST_CAP = x[ARG_D]` (R76). -/
def State.dstCap (s : State) : Nat := s.argD.toNat

/-- End the command with an error unless the condition holds. -/
def check (ok : Prop) [Decidable ok] (e : ErrorCode) : Except Halt Unit :=
  if ok then .ok () else .error (.raise e)

/-- The runs of the command's slot; NoList where the slot is ABSENT (R200). -/
def listOf (s : State) (i : SlotIndex) : Except Halt (List Word) :=
  if (s.slotAt i).present then .ok (s.slotAt i).runs else .error (.raise .noList)

/-- The runs of the command's slot, which must be LIVE: NoList where it is ABSENT, then ListEmpty where it is DRAINED
(R200, R211). -/
def liveListOf (s : State) (i : SlotIndex) : Except Halt (List Word) := do
  let runs ← listOf s i
  check (runs ≠ []) .listEmpty
  return runs

/-- The source window fits in BUF, in unbounded arithmetic (R54). -/
abbrev State.SrcOk (s : State) : Prop := s.src + s.srcLen ≤ s.params.bufBytes

/-- The destination window fits in BUF, in unbounded arithmetic (R55). -/
abbrev State.DstOk (s : State) : Prop := s.dst + s.dstCap ≤ s.params.bufBytes

/-- The bytes of the source window (R54). BadAddress where the window does not fit in BUF; the model faults where a
byte of it holds no value (10_state.md R44, log entry 6). -/
def sourceBytes (s : State) : Except Halt (List Byte) := do
  check s.SrcOk .badAddress
  match s.buf.readBytes s.src s.srcLen with
  | .ok bs => .ok bs
  | .error a => .error (.fault (.unwrittenByte a))

/-- The checks of a destination window for an output of `n` bytes (R55): BadAddress first, then AllocationFailure. -/
def checkDestination (s : State) (n : Nat) : Except Halt Unit := do
  check s.DstOk .badAddress
  check (n ≤ s.dstCap) .allocationFailure

/-- A list may be stored in a slot when it has at most MAX_RUNS runs, otherwise AllocationFailure
(10_state.md R31, 60_exceptions.md R201). -/
def checkCapacity (s : State) (n : Nat) : Except Halt Unit := check (n ≤ s.params.maxRuns) .allocationFailure

end Sys2Proof.Machine
end

