-- ==== Sys2Proof/Machine/Bitstream.lean ====
section
/-! DEFINITION. The bitstream commands, OPCODE group 0x1_ (41_bitstream.md): ENCODE turns the bits of a source window
into runs, DECODE turns runs back into bits. -/

namespace Sys2Proof.Machine

/-- The polarity of the run at index i (00_scope.md R13). -/
def polarityAt (i : Nat) : Bool := decide (i % 2 = 1)

/-- The encoder's current polarity: the polarity of the tail run, `(len(runs) - 1) mod 2` (R131, 90_conflicts.md C2). -/
def activePolarity (runs : List Word) : Bool := polarityAt (runs.length - 1)

/-- The greatest run, 2^64 - 1. -/
def maxRun : Word := BitVec.allOnes 64

/-- `encode_bit(runs, b)` for a non-empty list (R132), with the split of R133 where the tail run is full. -/
def encodeBit (runs : List Word) (b : Bool) : List Word :=
  if b = activePolarity runs then
    if runs.getLastD 0 < maxRun then runs.dropLast ++ [runs.getLastD 0 + 1]
    else runs ++ [0, 1]
  else runs ++ [1]

/-- The loop of ENCODE over the bits of the input in stream order (R130). -/
def encodeBits (runs : List Word) (q : List Bool) : List Word := q.foldl encodeBit runs

/-- What ENCODE computes (R130). -/
def encodeEffect (slot : SlotIndex) (s : State) : Except Halt Effect := do
  let runs ← liveListOf s slot
  let input ← sourceBytes s
  let runs' := encodeBits runs (streamBits input)
  checkCapacity s runs'.length
  return { slot := some { present := true, runs := runs' }, bytes := none, results := none }

/-- ENCODE (R130): append the bits of the source window to the list. -/
def execEncode (slot : SlotIndex) (s : State) : Host.Outcome State Fault Refusal :=
  runCommand slot (encodeEffect slot) s

/-- The expansion of a run list whose first run has polarity `p`; every run flips the polarity, also a run of 0
(R141). -/
def expandFrom (p : Bool) : List Word → List Bool
  | [] => []
  | r :: rest => List.replicate r.toNat p ++ expandFrom (!p) rest

/-- `bits(runs)` (R141): the bit sequence of a list, starting with polarity 0. -/
def runBits (runs : List Word) : List Bool := expandFrom false runs

/-- What DECODE computes (R140). The output is computed only once its length is known to fit. -/
def decodeEffect (slot : SlotIndex) (s : State) : Except Halt Effect := do
  let runs ← liveListOf s slot
  let t := totalBits runs
  let n := ceilDiv t 8
  checkDestination s n
  return { slot := some { present := true, runs := [] }, bytes := some (pack (runBits runs) n),
           results := some (BitVec.ofNat 64 n, BitVec.ofNat 64 t) }

/-- DECODE (R140): write the bits of the list at DST and drain the list (R143). -/
def execDecode (slot : SlotIndex) (s : State) : Host.Outcome State Fault Refusal :=
  runCommand slot (decodeEffect slot) s

end Sys2Proof.Machine
end

