-- ==== Sys2Proof/Machine/ListStore.lean ====
section
/-! DEFINITION. The run-list store commands, OPCODE group 0x0_ (40_list.md): CREATE, DESTROY, APPEND, POPFRONT, SIZE,
TOTAL. -/

namespace Sys2Proof.Machine

/-- CREATE (R100): slot s becomes a new list with one run of value 0, whatever it held before. -/
def execCreate (slot : SlotIndex) (s : State) : Host.Outcome State Fault Refusal :=
  runCommand slot (fun _ => .ok { slot := some { present := true, runs := [0] }, bytes := none, results := none }) s

/-- DESTROY (R102): slot s becomes ABSENT; on an ABSENT slot it changes nothing and succeeds. -/
def execDestroy (slot : SlotIndex) (s : State) : Host.Outcome State Fault Refusal :=
  runCommand slot (fun _ => .ok { slot := some Slot.absent, bytes := none, results := none }) s

/-- What APPEND computes (R104). -/
def appendEffect (slot : SlotIndex) (s : State) : Except Halt Effect := do
  let runs ← listOf s slot
  checkCapacity s (runs.length + 1)
  return { slot := some { present := true, runs := runs ++ [s.value] }, bytes := none, results := none }

/-- APPEND (R104): one new run of value ARG_A at the tail. -/
def execAppend (slot : SlotIndex) (s : State) : Host.Outcome State Fault Refusal :=
  runCommand slot (appendEffect slot) s

/-- What POPFRONT computes (R106). -/
def popfrontEffect (slot : SlotIndex) (s : State) : Except Halt Effect := do
  let runs ← liveListOf s slot
  return { slot := some { present := true, runs := runs.tail }, bytes := none, results := some (runs.headD 0, 0) }

/-- POPFRONT (R106): remove the first run and return it in RES0; RES1 is 0. -/
def execPopfront (slot : SlotIndex) (s : State) : Host.Outcome State Fault Refusal :=
  runCommand slot (popfrontEffect slot) s

/-- What SIZE computes (R108). -/
def sizeEffect (slot : SlotIndex) (s : State) : Except Halt Effect := do
  let runs ← listOf s slot
  return { slot := none, bytes := none, results := some (BitVec.ofNat 64 runs.length, 0) }

/-- SIZE (R108): the number of runs in RES0; RES1 is 0. -/
def execSize (slot : SlotIndex) (s : State) : Host.Outcome State Fault Refusal :=
  runCommand slot (sizeEffect slot) s

/-- What TOTAL computes (R110). -/
def totalEffect (slot : SlotIndex) (s : State) : Except Halt Effect := do
  let runs ← listOf s slot
  let t := totalBits runs
  return { slot := none, bytes := none, results := some (BitVec.ofNat 64 (t % 2 ^ 64), BitVec.ofNat 64 (t / 2 ^ 64)) }

/-- TOTAL (R110): the total bit count as the 128-bit number {RES1, RES0}. -/
def execTotal (slot : SlotIndex) (s : State) : Host.Outcome State Fault Refusal :=
  runCommand slot (totalEffect slot) s

end Sys2Proof.Machine
end

