-- ==== Sys2Proof/Machine/WireCodec.lean ====
section
/-! DEFINITION. The wire codec commands, OPCODE group 0x2_ (42_wire_codec.md), over the wire format of 30_encoding.md
R80 - R88. -/

namespace Sys2Proof.Machine

/-- A pair: `length` equal bits `bit` of one 64-bit count, length 1 .. 64 (00_scope.md R15, R161). -/
structure Pair where
  bit : Bool
  length : Nat
deriving DecidableEq, Repr

/-! ## SERIALIZE -/

/-- Group the maximal stretches of equal bits (R161). -/
def stretches : List Bool → List Pair
  | [] => []
  | b :: rest =>
    match stretches rest with
    | [] => [{ bit := b, length := 1 }]
    | p :: ps => if p.bit = b then { p with length := p.length + 1 } :: ps else { bit := b, length := 1 } :: p :: ps

/-- `pairs(C)`: the bits of a count from bit 63 down, grouped (R161). -/
def pairs (c : Word) : List Pair := stretches (wordBits c)

/-- The short header `{P, 0, N[1:0]}`, 4 bits (30_encoding.md R81). -/
def header4 (p : Pair) : List Bool := p.bit :: false :: bitsOfNat 2 p.length

/-- The extended header `{P, 1, (N mod 64)[5:0]}`, 8 bits (30_encoding.md R82): the field 0 means 64. -/
def header8 (p : Pair) : List Bool := p.bit :: true :: bitsOfNat 6 (p.length % 64)

/-- The header of a pair: short for a length up to 3, extended above (30_encoding.md R83). -/
def header (p : Pair) : List Bool := if p.length ≤ 3 then header4 p else header8 p

/-- The count group of one run (30_encoding.md R80, R162). -/
def countGroup (c : Word) : List Bool := (pairs c).flatMap header

/-- `headers(runs)`: the count groups of all runs in list order (R162). -/
def headers (runs : List Word) : List Bool := runs.flatMap countGroup

/-- Fill the last byte with one `0000` nibble where the header bits are an odd number of nibbles (30_encoding.md R86, R163). -/
def padTail (hb : List Bool) : List Bool := if hb.length % 8 = 4 then hb ++ [false, false, false, false] else hb

/-- The wire form of a run list (R160). -/
def wireBytes (runs : List Word) : List Byte := pack (padTail (headers runs)) ((padTail (headers runs)).length / 8)

/-- What SERIALIZE computes (R160). -/
def serializeEffect (slot : SlotIndex) (s : State) : Except Halt Effect := do
  let runs ← liveListOf s slot
  let out := wireBytes runs
  checkDestination s out.length
  return { slot := none, bytes := some out,
           results := some (BitVec.ofNat 64 out.length, BitVec.ofNat 64 (headers runs).length) }

/-- SERIALIZE (R160): write the wire form of the list at DST; the list is not changed. -/
def execSerialize (slot : SlotIndex) (s : State) : Host.Outcome State Fault Refusal :=
  runCommand slot (serializeEffect slot) s

/-! ## DESERIALIZE -/

/-- The deserializer's working state (R173, R174): the accumulator, its filled bit count, the finished counts in stream
order, and the bits consumed so far. -/
structure ParseState where
  acc : Nat
  filled : Nat
  counts : List Word
  pos : Nat
deriving DecidableEq, Repr

/-- The start of `parse` (R174). -/
def ParseState.start : ParseState := { acc := 0, filled := 0, counts := [], pos := 0 }

/-- Take in the pair (P, N) whose header has `hbits` bits (R173, R174): none where it would take the group past 64 bits.
A full accumulator becomes a count. -/
def ParseState.push (st : ParseState) (p : Bool) (n hbits : Nat) : Option ParseState :=
  if st.filled + n > 64 then none
  else if st.filled + n = 64 then
    some { acc := 0, filled := 0,
           counts := st.counts ++ [BitVec.ofNat 64 (st.acc * 2 ^ n + p.toNat * (2 ^ n - 1))], pos := st.pos + hbits }
  else
    some { acc := st.acc * 2 ^ n + p.toNat * (2 ^ n - 1), filled := st.filled + n, counts := st.counts,
           pos := st.pos + hbits }

/-- `(counts_checked(), pos)` (R174): at least one complete count and no part-filled group. -/
def ParseState.finish (st : ParseState) : Option (List Word × Nat) :=
  if st.filled ≠ 0 ∨ st.counts = [] then none else some (st.counts, st.pos)

/-- The length an extended header's field stands for: 0 means 64 (30_encoding.md R82). -/
def extendedLength (f : Nat) : Nat := if f = 0 then 64 else f

/-- The loop of `parse` (R174) on the bits not read yet; none is MalformedInput (R176). A short header with N = 0 is
padding only as the last nibble of the input, with P = 0 and no group part-filled (R175). -/
def parseLoop : List Bool → ParseState → Option (List Word × Nat)
  | [], st => st.finish
  | p :: false :: n1 :: n0 :: rest, st =>
    if natOfBits [n1, n0] = 0 then
      if rest = [] ∧ st.filled = 0 ∧ p = false then st.finish else none
    else
      match st.push p (natOfBits [n1, n0]) 4 with
      | none => none
      | some st' => parseLoop rest st'
  | p :: true :: f5 :: f4 :: f3 :: f2 :: f1 :: f0 :: rest, st =>
    match st.push p (extendedLength (natOfBits [f5, f4, f3, f2, f1, f0])) 8 with
    | none => none
    | some st' => parseLoop rest st'
  | [_], _ => none
  | [_, false], _ => none
  | [_, false, _], _ => none
  | [_, true], _ => none
  | [_, true, _], _ => none
  | [_, true, _, _], _ => none
  | [_, true, _, _, _], _ => none
  | [_, true, _, _, _, _], _ => none
  | [_, true, _, _, _, _, _], _ => none

/-- `parse(input)` (R174): the counts and the number of header bits read, or none for MalformedInput. -/
def parse (input : List Byte) : Option (List Word × Nat) := parseLoop (streamBits input) ParseState.start

/-- `parse`, with MalformedInput raised (R174, R202). -/
def parsed (input : List Byte) : Except Halt (List Word × Nat) :=
  match parse input with
  | some r => .ok r
  | none => .error (.raise .malformedInput)

/-- What DESERIALIZE computes (R170). -/
def deserializeEffect (s : State) : Except Halt Effect := do
  let input ← sourceBytes s
  let r ← parsed input
  checkCapacity s r.1.length
  return { slot := some { present := true, runs := r.1 }, bytes := none,
           results := some (BitVec.ofNat 64 r.1.length, BitVec.ofNat 64 r.2) }

/-- DESERIALIZE (R170): slot s becomes the list the source window describes, with no seed run (R171). -/
def execDeserialize (slot : SlotIndex) (s : State) : Host.Outcome State Fault Refusal :=
  runCommand slot deserializeEffect s

end Sys2Proof.Machine
end

