-- ==== Sys2Proof/Machine/Dispatch.lean ====
section
/-! DEFINITION. The dispatch of 30_encoding.md R74: one arm per command. -/

namespace Sys2Proof.Machine

def exec (i : Instr) (s : State) : Host.Outcome State Fault Refusal :=
  match i with
  -- the run-list store (40_list.md)
  | .create slot => Sys2Proof.Machine.execCreate slot s
  | .destroy slot => Sys2Proof.Machine.execDestroy slot s
  | .append slot => Sys2Proof.Machine.execAppend slot s
  | .popfront slot => Sys2Proof.Machine.execPopfront slot s
  | .size slot => Sys2Proof.Machine.execSize slot s
  | .total slot => Sys2Proof.Machine.execTotal slot s
  -- the bitstream transform (41_bitstream.md)
  | .encode slot => Sys2Proof.Machine.execEncode slot s
  | .decode slot => Sys2Proof.Machine.execDecode slot s
  -- the wire codec (42_wire_codec.md)
  | .serialize slot => Sys2Proof.Machine.execSerialize slot s
  | .deserialize slot => Sys2Proof.Machine.execDeserialize slot s

end Sys2Proof.Machine
end

