-- ==== Sys2Proof/Machine/Transactions.lean ====
section
/-! DEFINITION. The host's transactions (10_state.md R38 - R42) and the reset input (70_reset_and_hazards.md R230). -/

namespace Sys2Proof.Machine

/-- `execute(v)` (R40): decode the command word (30_encoding.md R74) and run the command, or raise IllegalCommand
(R75). -/
def execute (v : Word) (s : State) : Host.Outcome State Fault Refusal :=
  match decode s.params v with
  | .error _ => raise .illegalCommand s
  | .ok i => exec i s

/-- `RegWrite(off, v)` (R39): CMD takes the value and runs the command, the argument registers take the value, and any
other offset has no effect (R27). -/
def regWrite (off : Nat) (v : Word) (s : State) : Host.Outcome State Fault Refusal :=
  match registerAt off with
  | some .cmd => execute v (s.writeReg .cmd v)
  | some .argA => .next (s.writeReg .argA v)
  | some .argB => .next (s.writeReg .argB v)
  | some .argC => .next (s.writeReg .argC v)
  | some .argD => .next (s.writeReg .argD v)
  | some .res0 => .next s
  | some .res1 => .next s
  | some .status => .next s
  | none => .next s

/-- The value of `RegRead(off)` (R41): 0 at an unmapped offset (R27). -/
def regReadValue (off : Nat) (s : State) : Word :=
  match registerAt off with
  | some r => s.readReg r
  | none => 0

/-- `BufWrite(a, b)` (R42): no effect at a ≥ BUF_BYTES. -/
def bufWrite (a : Nat) (b : Byte) (s : State) : State :=
  if a < s.params.bufBytes then s.setBuf (s.buf.write a b) else s

/-- `BufRead(a)` (R42): 0 at a ≥ BUF_BYTES; the model faults where the byte holds no value (R44, U1). -/
def bufRead (a : Nat) (s : State) : Host.Outcome State Fault Refusal :=
  if a < s.params.bufBytes then
    match s.buf.read a with
    | some b => .next (s.setReply (.byte b))
    | none => .fault (.unwrittenByte a)
  else .next (s.setReply (.byte 0))

/-- One host transaction (R38). A write gives the host nothing back. -/
def transact (t : Transaction) (s : State) : Host.Outcome State Fault Refusal :=
  match t with
  | .regWrite off v => regWrite off v (s.setReply .nothing)
  | .regRead off => .next (s.setReply (.word (regReadValue off s)))
  | .bufWrite a b => .next (bufWrite a b (s.setReply .nothing))
  | .bufRead a => bufRead a s

/-- The one transaction the host may make while BUSY = 1: `RegRead(STATUS)` (R240). -/
def Transaction.readsStatus (t : Transaction) : Bool := decide (t = .regRead (Register.offset .status))

/-- A transaction as the block takes it: while STATUS.BUSY = 1 anything but a read of STATUS faults the model
(R240, U3; log entry 7). -/
def takeTransaction (t : Transaction) (s : State) : Host.Outcome State Fault Refusal :=
  if s.busy && !t.readsStatus then .fault .busyAccess else transact t s

/-- The reset input (R230, R44): every register, slot and BUF byte to its value after reset. The parameters stay, and
so does what the host does next (log entry 5). -/
def resetBlock (s : State) : State := { State.resetOf s.params with inputs := s.inputs }

/-- One input event. -/
def takeInput (i : Input) (s : State) : Host.Outcome State Fault Refusal :=
  match i with
  | .transaction t => takeTransaction t s
  | .reset => .next (resetBlock s)

/-- Let the next input happen; where there is none, the block waits (R231, R233). -/
def runNextInput (s : State) : Host.Outcome State Fault Refusal :=
  match s.inputs with
  | [] => .next s
  | i :: rest => takeInput i (s.setInputs rest)

/-- The host issues the command word `w` next: a write to CMD, before anything else it still has to do. -/
def issueNext (w : Word) (s : State) : State :=
  s.setInputs (.transaction (.regWrite (Register.offset .cmd) w) :: s.inputs)

end Sys2Proof.Machine
end

