-- ==== Sys2Proof/Machine/HostProgram.lean ====
section
/-! DEFINITION. The host syntax and its pseudo-instructions (30_encoding.md R90, R91), as the transactions they stand for.
The concrete text of a line (number formats, spacing) is notation and is left out (log entry 16). -/

namespace Sys2Proof.Machine

/-- A line of a host program (R90, R91). -/
inductive HostLine where
  /-- `wr NAME, v` -/
  | wr (r : Register) (v : Word)
  /-- `rd NAME` -/
  | rd (r : Register)
  /-- `bw a, b0, b1, …` -/
  | bw (a : Nat) (bs : List Byte)
  /-- `br a, n` -/
  | br (a : Nat) (n : Nat)
  /-- `MNEMONIC sK`: the command with the current argument registers. -/
  | command (i : Instr)
  /-- `APPEND sK, v` -/
  | appendValue (slot : SlotIndex) (v : Word)
  /-- `ENCODE sK, src, len` -/
  | encodeFrom (slot : SlotIndex) (src len : Word)
  /-- `DECODE sK, dst, cap` -/
  | decodeTo (slot : SlotIndex) (dst cap : Word)
  /-- `SERIALIZE sK, dst, cap` -/
  | serializeTo (slot : SlotIndex) (dst cap : Word)
  /-- `DESERIALIZE sK, src, len` -/
  | deserializeFrom (slot : SlotIndex) (src len : Word)
  /-- `CHECK` -/
  | check
  /-- `; text` -/
  | comment (text : String)
deriving DecidableEq, Repr

/-- `wr NAME, v` as a transaction (R90). -/
def wr (r : Register) (v : Word) : Transaction := .regWrite r.offset v

/-- `BufWrite(a, b0); BufWrite(a+1, b1); …` (R90). -/
def bwFrom : Nat → List Byte → List Transaction
  | _, [] => []
  | a, b :: bs => .bufWrite a b :: bwFrom (a + 1) bs

/-- `BufRead(a) … BufRead(a+n-1)` (R90). -/
def brFrom : Nat → Nat → List Transaction
  | _, 0 => []
  | a, n + 1 => .bufRead a :: brFrom (a + 1) n

/-- The transactions of a line, in order (R90, R91). -/
def HostLine.expand : HostLine → List Transaction
  | .wr r v => [.regWrite r.offset v]
  | .rd r => [.regRead r.offset]
  | .bw a bs => bwFrom a bs
  | .br a n => brFrom a n
  | .command i => [.regWrite (Register.offset .cmd) (Sys2Proof.encode i)]
  | .appendValue slot v =>
    [.regWrite (Register.offset .argA) v, .regWrite (Register.offset .cmd) (Sys2Proof.encode (.append slot))]
  | .encodeFrom slot src len =>
    [.regWrite (Register.offset .argA) src, .regWrite (Register.offset .argB) len,
     .regWrite (Register.offset .cmd) (Sys2Proof.encode (.encode slot))]
  | .decodeTo slot dst cap =>
    [.regWrite (Register.offset .argC) dst, .regWrite (Register.offset .argD) cap,
     .regWrite (Register.offset .cmd) (Sys2Proof.encode (.decode slot))]
  | .serializeTo slot dst cap =>
    [.regWrite (Register.offset .argC) dst, .regWrite (Register.offset .argD) cap,
     .regWrite (Register.offset .cmd) (Sys2Proof.encode (.serialize slot))]
  | .deserializeFrom slot src len =>
    [.regWrite (Register.offset .argA) src, .regWrite (Register.offset .argB) len,
     .regWrite (Register.offset .cmd) (Sys2Proof.encode (.deserialize slot))]
  | .check => [.regRead (Register.offset .status)]
  | .comment _ => []

/-- A host program as the inputs of the block. -/
def assemble (p : List HostLine) : List Input := (p.flatMap HostLine.expand).map .transaction

/-- The host runs a program next. -/
def State.load (s : State) (p : List HostLine) : State := s.setInputs (assemble p ++ s.inputs)

end Sys2Proof.Machine
end

