-- ==== Sys2Proof/Machine/PackingView.lean ====
section
/-! DEFINITION. The byte-level view of the serializer (42_wire_codec.md R165, 30_encoding.md R87): a flag `complete`
that carries across headers and count groups. R165 says that it gives the same bytes as the bit stream of `wireBytes`;
SERIALIZE uses the latter. -/

namespace Sys2Proof.Machine

/-- The packing state of R165: the bytes so far, and whether the stream is a whole number of bytes. Where it is not,
the last byte is the current one and its low nibble is still free (0). -/
structure Packer where
  bytes : List Byte
  complete : Bool
deriving DecidableEq, Repr

/-- The flag starts true (R165). -/
def Packer.start : Packer := { bytes := [], complete := true }

/-- Put 4 bits into the low nibble of the current byte. -/
def Packer.fillLow (bytes : List Byte) (nibble : Nat) : List Byte :=
  bytes.dropLast ++ [bytes.getLastD 0 ||| BitVec.ofNat 8 nibble]

/-- Emit one header (R165): a short header flips the flag; an extended header leaves it, and straddles two bytes where
it is false. -/
def Packer.emit (k : Packer) (p : Pair) : Packer :=
  if p.length ≤ 3 then
    if k.complete then { bytes := k.bytes ++ [BitVec.ofNat 8 (natOfBits (header p) * 16)], complete := false }
    else { bytes := Packer.fillLow k.bytes (natOfBits (header p)), complete := true }
  else
    if k.complete then { bytes := k.bytes ++ [BitVec.ofNat 8 (natOfBits (header p))], complete := true }
    else
      { bytes := Packer.fillLow k.bytes (natOfBits (header p) / 16) ++ [BitVec.ofNat 8 (natOfBits (header p) % 16 * 16)],
        complete := false }

/-- The bytes of a run list by the byte-level view. The padding nibble of an incomplete last byte is its low nibble,
already 0 (R165). -/
def packedBytes (runs : List Word) : List Byte := ((runs.flatMap pairs).foldl Packer.emit Packer.start).bytes

end Sys2Proof.Machine
end

