-- ==== Sys2Proof/Machine/Step.lean ====
section
/-! DEFINITION. One step of the machine: the next input of the host happens (10_state.md R38, R40). -/

namespace Sys2Proof.Machine

/-- One step: one host transaction or one reset, each atomic (R38, R40, R230). -/
def step (s : State) : Host.Outcome State Fault Refusal := runNextInput s

/-- The state in which the very next step issues the command word `w`: the block runs a command when the host writes it
to CMD (R22, R40), so the write is put before everything the host still has to do (log entry 3). -/
def State.withFetchWord (s : State) (nbits w : Nat) : State := issueNext (tableWord nbits w) s

end Sys2Proof.Machine
end

