-- ==== Sys2Proof/Safety.lean ====
section
/-! DEFINITION. What counts as a good state and a safe run, in the terms the statements use. -/

namespace Sys2Proof.Machine

/-- A slot as 10_state.md R31 keeps it: at most MAX_RUNS runs, and no runs where it is ABSENT. -/
abbrev Slot.Ok (l : Slot) (p : Params) : Prop := l.runs.length ≤ p.maxRuns ∧ (l.present = false → l.runs = [])

/-- There are NUM_SLOTS slots and each is as R31 says. -/
abbrev State.SlotsOk (s : State) : Prop := s.slots.length = s.params.numSlots ∧ ∀ l ∈ s.slots, l.Ok s.params

/-- BUF is in canonical form and holds values at addresses below BUF_BYTES alone (R34). -/
abbrev State.BufOk (s : State) : Prop := Memory.wf s.buf ∧ ∀ c ∈ s.buf, c.1 < s.params.bufBytes

/-- STATUS holds success or a code some command raises: BUSY = 0, reserved bits 0, ECODE ≤ 6 (R25; U8, U9, U10 of
93_implementation_defined.md). -/
abbrev State.StatusOk (s : State) : Prop := s.status ≤ 6

/-- The invariant of the block: it holds after reset, and every step keeps it. -/
abbrev State.Inv (s : State) : Prop := s.params.Legal ∧ s.SlotsOk ∧ s.BufOk ∧ s.StatusOk

/-- Every byte of BUF from address `a`, `n` of them, holds a value: what the host owes before a command or a BufRead
reads them (70_reset_and_hazards.md R232). -/
abbrev State.Written (s : State) (a n : Nat) : Prop := ∀ k, k < n → (s.buf.read (a + k)).isSome

/-- BUF holds the bytes `bs` from address `a`. -/
abbrev State.Holds (s : State) (a : Nat) (bs : List Byte) : Prop := ∀ k, k < bs.length → s.buf.read (a + k) = bs[k]?

/-- The source window of ENCODE and DESERIALIZE is the byte sequence `bs` (20_memory.md R54): it fits in BUF, it is as
long as ARG_B says, and its bytes are `bs`. -/
abbrev State.Source (s : State) (bs : List Byte) : Prop :=
  s.SrcOk ∧ bs.length = s.srcLen ∧ s.Holds s.src bs

/-- The command's slot exists (30_encoding.md R74). -/
abbrev State.HasSlot (s : State) (i : SlotIndex) : Prop := i.toNat < s.slots.length

/-- The slot is LIVE (10_state.md R32). -/
abbrev State.Live (s : State) (i : SlotIndex) : Prop := (s.slotAt i).condition = .live

/-- The list in the command's slot is present and has these runs (10_state.md R30). -/
abbrev State.HasList (s : State) (i : SlotIndex) (runs : List Word) : Prop :=
  s.slotAt i = { present := true, runs := runs }

/-! ## The wire format as a grammar (30_encoding.md R80 - R86), independent of the parser -/

/-- The bit strings that are a header of the pair `p` (R81, R82, R85): a short header with N = 1, 2, 3, or an extended
header with field 1 .. 63, or 0 for 64. The serializer's choice (R83) is one of them. -/
def IsHeader (bits : List Bool) (p : Pair) : Prop :=
  (∃ n1 n0, bits = [p.bit, false, n1, n0] ∧ p.length = natOfBits [n1, n0] ∧ p.length ≠ 0) ∨
  (∃ f5 f4 f3 f2 f1 f0, bits = [p.bit, true, f5, f4, f3, f2, f1, f0] ∧
    ((natOfBits [f5, f4, f3, f2, f1, f0] ≠ 0 ∧ p.length = natOfBits [f5, f4, f3, f2, f1, f0]) ∨
      (natOfBits [f5, f4, f3, f2, f1, f0] = 0 ∧ p.length = 64)))

/-- A count group: headers whose pair lengths sum to exactly 64 (R80). -/
def IsGroup (g : List (List Bool × Pair)) : Prop :=
  (∀ x ∈ g, IsHeader x.1 x.2) ∧ (g.map (fun x => x.2.length)).sum = 64

/-- The 64-bit count that a group spells: its pairs' bits, first pair most significant (R173). -/
def groupCount (g : List (List Bool × Pair)) : Word :=
  BitVec.ofNat 64 (natOfBits (g.flatMap (fun x => List.replicate x.2.length x.2.bit)))

/-- The bits `q` are a wire stream of the counts `counts` with `used` header bits: at least one count group, the groups
back to back, and then nothing or one `0000` nibble (R80, R86). -/
def IsWireStream (q : List Bool) (counts : List Word) (used : Nat) : Prop :=
  ∃ gs : List (List (List Bool × Pair)), gs ≠ [] ∧ (∀ g ∈ gs, IsGroup g) ∧ counts = gs.map groupCount ∧
    used = (gs.flatten.flatMap Prod.fst).length ∧
    (q = gs.flatten.flatMap Prod.fst ∨ q = gs.flatten.flatMap Prod.fst ++ [false, false, false, false])

/-- The number of bytes a command writes at DST where it succeeds: the output of DECODE (41_bitstream.md R140) and of
SERIALIZE (42_wire_codec.md R160); no other command writes BUF (10_state.md R34). -/
def outputLength (i : Instr) (s : State) : Nat :=
  match i with
  | .create _ => 0
  | .destroy _ => 0
  | .append _ => 0
  | .popfront _ => 0
  | .size _ => 0
  | .total _ => 0
  | .encode _ => 0
  | .decode slot => ceilDiv (totalBits (s.slotAt slot).runs) 8
  | .serialize slot => (wireBytes (s.slotAt slot).runs).length
  | .deserialize _ => 0

/-- Every BUF byte that the next input reads holds a value (70_reset_and_hazards.md R232, duty 1): the byte of a BufRead
inside BUF, and the source window of a DESERIALIZE, or of an ENCODE of a LIVE slot, whose window fits in BUF. -/
def State.NextReadsWritten (s : State) : Prop :=
  (∀ a rest, s.inputs = .transaction (.bufRead a) :: rest → a < s.params.bufBytes → s.Written a 1) ∧
  (∀ w rest slot, s.inputs = .transaction (.regWrite 0x00 w) :: rest → s.SrcOk →
    (decode s.params w = .ok (.deserialize slot) ∨ (decode s.params w = .ok (.encode slot) ∧ s.Live slot)) →
    s.Written s.src s.srcLen)

/-- In the first n steps of a run no unwritten BUF byte is read. -/
def ReadsWrittenFor : Nat → State → Prop
  | 0, _ => True
  | k + 1, s => s.NextReadsWritten ∧ ∀ s', step s = .next s' → ReadsWrittenFor k s'

/-- A run is safe when no step of it ends in a fault or a refusal. -/
def SafeFor : Nat → State → Prop
  | 0, _ => True
  | k + 1, s =>
    match step s with
    | .next s' => SafeFor k s'
    | .fault _ => False
    | .refused _ => False

end Sys2Proof.Machine
end

