-- ==== Sys2Proof/Certificates/Slice0/Obligations.lean ====
section
/-! DEFINITION. The statements for the provers (OBLIGATIONS.json), in the order of the spec's files. A statement about a
command that gives the whole next state as `{ s with … }` is at once its result, its completion and its frame. -/

open Sys2Proof Sys2Proof.Machine

/-! ## Encoding (30_encoding.md, section 1) -/

/-- Decoding the command word of a well-formed command gives the command back, in every instance (R70, R72, R74). -/
def Obligations.DecodeOfEncodeIsTheCommand : Prop :=
  ∀ (p : Params) (i : Instr), i.WellFormed p → decode p (encode i) = .ok i

/-- Each legal word has one meaning: it is the command word of the command it decodes to, whose slot exists
(R70, R72, R74). -/
def Obligations.LegalWordEncodesItsCommand : Prop :=
  ∀ (p : Params) (w : Word) (i : Instr), decode p w = .ok i → encode i = w ∧ i.WellFormed p

/-- R74. A word with bits 63:12 zero, an OPCODE of the table and SLOT < NUM_SLOTS runs the command of that opcode on that
slot. Every other word raises IllegalCommand, whichever check fails. -/
def Obligations.CommandDecodeDispatchesOrRaisesIllegal : Prop :=
  ∀ (w : Word) (s : State),
    let legal := w.extractLsb' 12 52 = 0 ∧
      w.extractLsb' 0 8 ∈ ([0x01, 0x02, 0x03, 0x04, 0x05, 0x06, 0x10, 0x11, 0x20, 0x21] : List (BitVec 8)) ∧
      (w.extractLsb' 8 4).toNat < s.params.numSlots
    (legal → ∃ i : Instr, i.opcode = w.extractLsb' 0 8 ∧ i.slot = w.extractLsb' 8 4 ∧ execute w s = exec i s) ∧
    (¬legal → execute w s = .next { s with status := 1 })

/-- Sanity: words written out from the opcode table R72 decode to the commands they stand for, and each illegal word to
the check of R74 it fails, in the instance with NUM_SLOTS = 2. -/
def Obligations.WrittenOutWordsDecode : Prop :=
  [0x001, 0x102, 0x003, 0x104, 0x005, 0x106, 0x010, 0x111, 0x020, 0x121].map (decode Params.specExample) =
    [Except.ok (Instr.create 0), .ok (.destroy 1), .ok (.append 0), .ok (.popfront 1), .ok (.size 0), .ok (.total 1),
      .ok (.encode 0), .ok (.decode 1), .ok (.serialize 0), .ok (.deserialize 1)] ∧
  [0x000, 0x007, 0x205, 0x1005, 0x8000000000000001].map (decode Params.specExample) =
    [Except.error DecodeError.unassignedOpcode, .error .unassignedOpcode, .error .slotOutOfRange, .error .reservedBits,
      .error .reservedBits]

/-- R75. Writing an illegal command word to CMD reports code 1 and changes nothing but CMD and STATUS; the word 0 is
illegal. (`inputs` and `reply` are the model's own fields: the write is used up and gives the host nothing.) -/
def Obligations.IllegalWordOnlyReportsCodeOne : Prop :=
  (∀ (s : State) (rest : List Input) (w : Word), s.busy = false →
    s.inputs = .transaction (.regWrite 0x00 w) :: rest →
    ¬(w.extractLsb' 12 52 = 0 ∧
      w.extractLsb' 0 8 ∈ ([0x01, 0x02, 0x03, 0x04, 0x05, 0x06, 0x10, 0x11, 0x20, 0x21] : List (BitVec 8)) ∧
      (w.extractLsb' 8 4).toNat < s.params.numSlots) →
    step s = .next { s with inputs := rest, reply := .nothing, cmd := w, status := 1 }) ∧
  (∀ (s : State) (rest : List Input), s.busy = false → s.inputs = .transaction (.regWrite 0x00 0) :: rest →
    step s = .next { s with inputs := rest, reply := .nothing, cmd := 0, status := 1 })

/-! ## The step and the host's transactions (10_state.md) -/

/-- A step whose next input writes a legal command word to CMD is `exec` of the decoded command, in the state in which
the input is used up, CMD holds the word and the host gets nothing back (R22, R38, R39, R40; that the inputs and the
reply are fields of State is the model's choice, log entries 3, 4). -/
def Obligations.StepRunsTheDecodedCommand : Prop :=
  ∀ (s : State) (rest : List Input) (w : Word) (i : Instr), s.busy = false →
    s.inputs = .transaction (.regWrite 0x00 w) :: rest → decode s.params w = .ok i →
    step s = exec i { s with inputs := rest, reply := .nothing, cmd := w }

/-- The word of a well-formed command, placed by `withFetchWord`, is what the very next step runs; the inputs that were
waiting still wait. That a word is placed as a CMD write before the waiting inputs, which stay, is the model's choice
(log entry 3); that a CMD write runs the command is R22, R39, R40. -/
def Obligations.PlacedTableWordRunsNext : Prop :=
  ∀ (s : State) (i : Instr), s.busy = false → i.WellFormed s.params →
    step (s.withFetchWord 64 (encode i).toNat) = exec i { s with reply := .nothing, cmd := encode i }

/-- R39. RegWrite: CMD takes the value and executes it, ARG_A .. ARG_D take the value, any other offset has no effect. -/
def Obligations.RegWriteEffects : Prop :=
  ∀ (s : State) (rest : List Input) (off : Nat) (v : Word), s.busy = false →
    s.inputs = .transaction (.regWrite off v) :: rest →
    step s =
      if off = 0x00 then execute v { s with inputs := rest, reply := .nothing, cmd := v }
      else if off = 0x08 then .next { s with inputs := rest, reply := .nothing, argA := v }
      else if off = 0x10 then .next { s with inputs := rest, reply := .nothing, argB := v }
      else if off = 0x18 then .next { s with inputs := rest, reply := .nothing, argC := v }
      else if off = 0x20 then .next { s with inputs := rest, reply := .nothing, argD := v }
      else .next { s with inputs := rest, reply := .nothing }

/-- R41. RegRead gives the host the register at the offset, 0 at an unmapped one, and has no side effect. For a STATUS
that the block can hold, the value read is {BUSY = 0, reserved = 0, ECODE}. -/
def Obligations.RegReadGivesTheRegister : Prop :=
  (∀ (s : State) (rest : List Input) (off : Nat), s.busy = false →
    s.inputs = .transaction (.regRead off) :: rest →
    step s = .next { s with
      inputs := rest
      reply := .word (
        if off = 0x00 then s.cmd else if off = 0x08 then s.argA else if off = 0x10 then s.argB
        else if off = 0x18 then s.argC else if off = 0x20 then s.argD else if off = 0x28 then s.res0
        else if off = 0x30 then s.res1 else if off = 0x38 then s.status else 0) }) ∧
  (∀ s : State, s.StatusOk → s.status = (s.status.extractLsb' 0 4).setWidth 64)

/-- R42. BufWrite sets the byte at an address below BUF_BYTES and is ignored above; BufRead gives the byte below, and 0
above; neither has another effect. (Where the byte holds no value, BufRead faults the model: R44.) -/
def Obligations.BufTransactions : Prop :=
  (∀ (s : State) (rest : List Input) (a : Nat) (b : Byte), s.busy = false →
    s.inputs = .transaction (.bufWrite a b) :: rest →
    ∃ m : Memory, step s = .next { s with inputs := rest, reply := .nothing, buf := m } ∧
      (a < s.params.bufBytes → m.read a = some b ∧ ∀ c, c ≠ a → m.read c = s.buf.read c) ∧
      (s.params.bufBytes ≤ a → m = s.buf)) ∧
  (∀ (s : State) (rest : List Input) (a : Nat), s.busy = false → s.inputs = .transaction (.bufRead a) :: rest →
    (s.params.bufBytes ≤ a → step s = .next { s with inputs := rest, reply := .byte 0 }) ∧
    (∀ b, a < s.params.bufBytes → s.buf.read a = some b → step s = .next { s with inputs := rest, reply := .byte b }) ∧
    (a < s.params.bufBytes → s.buf.read a = none → step s = .fault (.unwrittenByte a)))

/-- The state after reset of every instance (R44): registers 0, every slot ABSENT, no byte of BUF holding a value; a
BufRead of any byte of BUF then faults the model, and so does a DESERIALIZE, or an ENCODE of a LIVE slot, that reads one.
That `State.reset` is the instance with the example parameters is the model's choice (log entry 2). -/
def Obligations.StateAfterReset : Prop :=
  (∀ p : Params,
    let r := State.resetOf p
    r.params = p ∧ r.cmd = 0 ∧ r.argA = 0 ∧ r.argB = 0 ∧ r.argC = 0 ∧ r.argD = 0 ∧ r.res0 = 0 ∧ r.res1 = 0 ∧
    r.status = 0 ∧ r.slots = List.replicate p.numSlots { present := false, runs := [] } ∧
    (∀ a, r.buf.read a = none) ∧
    (∀ a, a < p.bufBytes → step { r with inputs := [.transaction (.bufRead a)] } = .fault (.unwrittenByte a)) ∧
    (∀ (slot : SlotIndex) (l : List Slot) (a n : Word), n ≠ 0 → a.toNat + n.toNat ≤ p.bufBytes →
      let s := { r with slots := l, argA := a, argB := n }
      exec (.deserialize slot) s = .fault (.unwrittenByte a.toNat) ∧
      (s.Live slot → exec (.encode slot) s = .fault (.unwrittenByte a.toNat)))) ∧
  State.reset = State.resetOf Params.specExample

/-- The hardware reset input puts every register, slot and BUF byte into its state after reset, whatever the state was,
also while BUSY; it keeps the parameters and what the host does next (R230, R44; that the host's next inputs stay is
the model's choice, log entry 5). -/
def Obligations.ResetInputResetsTheBlock : Prop :=
  ∀ (s : State) (rest : List Input), s.inputs = .reset :: rest →
    ∃ t, step s = .next t ∧ t.params = s.params ∧ t.inputs = rest ∧
      t.cmd = 0 ∧ t.argA = 0 ∧ t.argB = 0 ∧ t.argC = 0 ∧ t.argD = 0 ∧ t.res0 = 0 ∧ t.res1 = 0 ∧ t.status = 0 ∧
      t.slots = List.replicate s.params.numSlots { present := false, runs := [] } ∧ (∀ a, t.buf.read a = none)

/-- With no transaction left the block waits and nothing is pending (R231, R233; that a wait is a step which changes
nothing is the model's choice, log entry 3). -/
def Obligations.NoInputLeavesTheBlockWaiting : Prop :=
  ∀ s : State, s.inputs = [] → step s = .next s

/-- Every step uses up one input and no step changes the parameters of the instance (R7, R38). -/
def Obligations.StepUsesUpOneInput : Prop :=
  ∀ s t : State, step s = .next t → t.inputs = s.inputs.tail ∧ t.params = s.params

/-! ## Safety and invariants -/

/-- The invariant holds after reset, for every legal choice of the parameters, and in `State.reset`, whose parameters are
the model's choice (log entry 2). -/
def Obligations.InvariantHoldsAfterReset : Prop :=
  (∀ p : Params, p.Legal → (State.resetOf p).Inv) ∧ State.reset.Inv

/-- Every step keeps the invariant: legal parameters; NUM_SLOTS slots, each with at most MAX_RUNS runs and none where it
is ABSENT (R31); BUF in canonical form inside its bounds; STATUS a reportable code with BUSY 0 (R25, R200). -/
def Obligations.StepKeepsTheInvariant : Prop :=
  ∀ s t : State, s.Inv → step s = .next t → t.Inv

/-- In a state with the invariant STATUS.BUSY is 0 and the reserved bits 62:4 are 0 (R25, U10), and ECODE is at most 6
(U8, U9); in any state a write to CMD that ends in a next state leaves a code from 0 to 6 in STATUS. -/
def Obligations.StatusHoldsAReportableCode : Prop :=
  (∀ s : State, s.Inv → s.busy = false ∧ s.status.extractLsb' 4 59 = 0 ∧ s.ecode ≤ 6) ∧
  (∀ (s t : State) (rest : List Input) (w : Word), s.busy = false →
    s.inputs = .transaction (.regWrite 0x00 w) :: rest → step s = .next t → t.status ≤ 6)

/-- From a state with the invariant no step refuses, and a step faults only on the read of a BUF byte that nothing has
written since reset: the block itself has no fatal state (R213, R44, U1, U3). -/
def Obligations.OnlyUnwrittenBytesStopTheModel : Prop :=
  ∀ s : State, s.Inv → (∀ r, step s ≠ .refused r) ∧
    (∀ f, step s = .fault f → ∃ a, f = .unwrittenByte a ∧ a < s.params.bufBytes ∧ s.buf.read a = none)

/-- While BUSY = 1 every transaction but RegRead(STATUS) faults the model, and RegRead(STATUS) gives STATUS
(R240, U3). No state with the invariant has BUSY = 1. -/
def Obligations.BusyBlocksOtherTransactions : Prop :=
  ∀ (s : State) (t : Transaction) (rest : List Input), s.busy = true → s.inputs = .transaction t :: rest →
    (t ≠ .regRead 0x38 → step s = .fault .busyAccess) ∧
    (t = .regRead 0x38 → step s = .next { s with inputs := rest, reply := .word s.status })

/-- No rule reads BUS_BINDING: two instances that differ in it alone take the same steps (R7, R52, U2). -/
def Obligations.BusBindingIsNeverRead : Prop :=
  ∀ (s : State) (b : BusBinding),
    (∀ t, step s = .next t → step { s with params := { s.params with busBinding := b } } =
      .next { t with params := { t.params with busBinding := b } }) ∧
    (∀ f, step s = .fault f → step { s with params := { s.params with busBinding := b } } = .fault f)

/-- A run that reads no unwritten BUF byte in its first n steps completes them: no step faults or refuses, the first n
inputs are used up and the invariant holds at the end (R213, R232, R251; that the host's inputs are a list in State is
the model's choice, log entry 3). The hypothesis is about the bytes the inputs read and not about the steps' outcomes. -/
def Obligations.SafeRunsComplete : Prop :=
  ∀ (n : Nat) (s : State), s.Inv → ReadsWrittenFor n s →
    SafeFor n s ∧ ∃ t, Sys2Proof.core.run n s = .next t ∧ t.inputs = s.inputs.drop n ∧ t.Inv

/-! ## Frames over all commands -/

/-- No command writes CMD, an argument register or a field of the model's own (R22, R23). -/
def Obligations.CommandsKeepHostRegisters : Prop :=
  ∀ (i : Instr) (s t : State), exec i s = .next t →
    t.cmd = s.cmd ∧ t.argA = s.argA ∧ t.argB = s.argB ∧ t.argC = s.argC ∧ t.argD = s.argD ∧
    t.params = s.params ∧ t.inputs = s.inputs ∧ t.reply = s.reply

/-- CREATE, DESTROY, APPEND and ENCODE leave RES0 and RES1 unchanged, whether they succeed or not; so does every command
that raises an error (R24). -/
def Obligations.ResultRegisterFrame : Prop :=
  ∀ (i : Instr) (s t : State), exec i s = .next t →
    ((∃ slot, i = .create slot ∨ i = .destroy slot ∨ i = .append slot ∨ i = .encode slot) ∨ t.status ≠ 0) →
    t.res0 = s.res0 ∧ t.res1 = s.res1

/-- R210. A write to CMD that reports an error changes nothing but CMD, which holds the word written, and STATUS, which
holds the zero-extended code of an error of R200; the failure is precise. -/
def Obligations.ErrorChangesOnlyCmdAndStatus : Prop :=
  ∀ (s t : State) (rest : List Input) (w : Word), s.busy = false →
    s.inputs = .transaction (.regWrite 0x00 w) :: rest → step s = .next t → t.status ≠ 0 →
    ∃ e : ErrorCode, t = { s with inputs := rest, reply := .nothing, cmd := w, status := BitVec.ofNat 64 e.code }

/-- BUF frame. CREATE, DESTROY, APPEND, POPFRONT, SIZE, TOTAL, ENCODE and DESERIALIZE leave every byte of BUF as it was.
DECODE and SERIALIZE leave every byte outside [ARG_C, ARG_C + n) as it was, where n is the length of the output they
compute, and a form of them that raises an error leaves every byte (R34, R55, R247). -/
def Obligations.BufFrame : Prop :=
  ∀ (i : Instr) (s t : State), exec i s = .next t →
    ((∀ slot, i ≠ .decode slot ∧ i ≠ .serialize slot) → ∀ a, t.buf.read a = s.buf.read a) ∧
    (∀ slot, i = .decode slot → ∀ a,
      (a < s.argC.toNat ∨ s.argC.toNat + ceilDiv (totalBits (s.slotAt slot).runs) 8 ≤ a) →
      t.buf.read a = s.buf.read a) ∧
    (∀ slot, i = .serialize slot → ∀ a,
      (a < s.argC.toNat ∨ s.argC.toNat + (wireBytes (s.slotAt slot).runs).length ≤ a) →
      t.buf.read a = s.buf.read a) ∧
    (t.status ≠ 0 → ∀ a, t.buf.read a = s.buf.read a)

/-- SIZE, TOTAL and SERIALIZE leave every slot as it was; so does every command that raises an error
(R108, R110, R160, R210). -/
def Obligations.SlotFrame : Prop :=
  ∀ (i : Instr) (s t : State), exec i s = .next t →
    ((∃ slot, i = .size slot ∨ i = .total slot ∨ i = .serialize slot) ∨ t.status ≠ 0) → t.slots = s.slots

/-- A command on one slot neither reads nor writes another slot (R30): it leaves the others as they were, and with other
contents in them it does exactly the same to its own slot and to everything else. -/
def Obligations.CommandsReadAndWriteOnlyTheirSlot : Prop :=
  ∀ (i : Instr) (s : State) (other : List Slot), other.length = s.slots.length →
    other[i.slot.toNat]? = s.slots[i.slot.toNat]? →
    (∀ t, exec i s = .next t → (∀ k, k ≠ i.slot.toNat → t.slots[k]? = s.slots[k]?) ∧
      ∃ t', exec i { s with slots := other } = .next t' ∧ { t' with slots := t.slots } = t ∧
        t'.slots[i.slot.toNat]? = t.slots[i.slot.toNat]? ∧ (∀ k, k ≠ i.slot.toNat → t'.slots[k]? = other[k]?)) ∧
    (∀ f, exec i s = .fault f → exec i { s with slots := other } = .fault f)

/-- No command both reads and writes BUF (R56). ENCODE and DESERIALIZE leave BUF as it was. What any other command does
depends on no byte of BUF: with any other contents `m` it ends in the same state outside BUF; a byte of the output
window, which starts at ARG_C and is written where the command succeeds, gets the same value, and every other byte stays
as it was in each. -/
def Obligations.NoCommandReadsAndWritesBuf : Prop :=
  ∀ (i : Instr) (s : State) (m : Memory),
    ((∃ slot, i = .encode slot ∨ i = .deserialize slot) → ∀ t, exec i s = .next t → t.buf = s.buf) ∧
    ((∀ slot, i ≠ .encode slot ∧ i ≠ .deserialize slot) →
      ∃ t t', exec i s = .next t ∧ exec i { s with buf := m } = .next t' ∧ { t' with buf := t.buf } = t ∧
        ∀ a,
          if t.status = 0 ∧ s.argC.toNat ≤ a ∧ a < s.argC.toNat + outputLength i s then
            t'.buf.read a = t.buf.read a
          else t.buf.read a = s.buf.read a ∧ t'.buf.read a = m.read a)

/-- An error does not make a later command fail: what a command does, does not depend on STATUS (R212). -/
def Obligations.StatusDoesNotAffectCommands : Prop :=
  ∀ (i : Instr) (s : State) (v : Word), exec i { s with status := v } = exec i s

/-! ## The run-list store (40_list.md) -/

/-- R100. CREATE makes the slot a new list with one run of value 0, whatever the slot held, and always succeeds;
RES0, RES1 and everything else stay. The slot is then LIVE with size 1 and total 0, and its active polarity is 0 (the
first two sentences of R101). -/
def Obligations.CreateMakesTheSeededList : Prop :=
  ∀ (s : State) (slot : SlotIndex),
    exec (.create slot) s =
      .next { s with slots := s.slots.set slot.toNat { present := true, runs := [0] }, status := 0 } ∧
    (s.HasSlot slot → ∀ t, exec (.create slot) s = .next t →
      (t.slotAt slot).condition = .live ∧ (t.slotAt slot).runs.length = 1 ∧ totalBits (t.slotAt slot).runs = 0 ∧
      activePolarity (t.slotAt slot).runs = false)

/-- R102. DESTROY makes the slot ABSENT and always succeeds; on a slot that is ABSENT it changes nothing but STATUS. -/
def Obligations.DestroyMakesTheSlotAbsent : Prop :=
  ∀ (s : State) (slot : SlotIndex),
    exec (.destroy slot) s =
      .next { s with slots := s.slots.set slot.toNat { present := false, runs := [] }, status := 0 } ∧
    (s.slotAt slot = { present := false, runs := [] } → exec (.destroy slot) s = .next { s with status := 0 })

/-- A command other than CREATE, DESTROY and DESERIALIZE on an ABSENT slot raises NoList (2), whatever else is wrong
with it; in particular after a DESTROY of the slot (R103, R200, R211). -/
def Obligations.AbsentSlotRaisesNoList : Prop :=
  ∀ (s : State) (slot : SlotIndex) (i : Instr),
    i ∈ [Instr.append slot, .popfront slot, .size slot, .total slot, .encode slot, .decode slot, .serialize slot] →
    ((s.slotAt slot).present = false → exec i s = .next { s with status := 2 }) ∧
    (∀ t, s.HasSlot slot → exec (.destroy slot) s = .next t → exec i t = .next { t with status := 2 })

/-- R104. APPEND: NoList where the slot is ABSENT, AllocationFailure where it already holds MAX_RUNS runs, and otherwise
one new run of value ARG_A at the tail. -/
def Obligations.AppendAddsOneRun : Prop :=
  ∀ (s : State) (slot : SlotIndex),
    ((s.slotAt slot).present = false → exec (.append slot) s = .next { s with status := 2 }) ∧
    (∀ runs, s.HasList slot runs → s.params.maxRuns < runs.length + 1 →
      exec (.append slot) s = .next { s with status := 5 }) ∧
    (∀ runs, s.HasList slot runs → runs.length + 1 ≤ s.params.maxRuns →
      exec (.append slot) s =
        .next { s with slots := s.slots.set slot.toNat { present := true, runs := runs ++ [s.argA] }, status := 0 })

/-- R106. POPFRONT: NoList where the slot is ABSENT, ListEmpty where it is DRAINED, and otherwise the first run leaves the
list and stands in RES0, with RES1 = 0. -/
def Obligations.PopfrontReturnsTheFirstRun : Prop :=
  ∀ (s : State) (slot : SlotIndex),
    ((s.slotAt slot).present = false → exec (.popfront slot) s = .next { s with status := 2 }) ∧
    (s.HasList slot [] → exec (.popfront slot) s = .next { s with status := 3 }) ∧
    (∀ v rest, s.HasList slot (v :: rest) →
      exec (.popfront slot) s =
        .next { s with
          slots := s.slots.set slot.toNat { present := true, runs := rest }
          res0 := v, res1 := 0, status := 0 })

/-- R108. SIZE: NoList where the slot is ABSENT, and otherwise RES0 is the number of runs, which fits in 64 bits, and
RES1 is 0; the list is not changed. -/
def Obligations.SizeReturnsTheRunCount : Prop :=
  ∀ (s : State) (slot : SlotIndex),
    ((s.slotAt slot).present = false → exec (.size slot) s = .next { s with status := 2 }) ∧
    (∀ runs, s.HasList slot runs →
      exec (.size slot) s = .next { s with res0 := BitVec.ofNat 64 runs.length, res1 := 0, status := 0 }) ∧
    (∀ runs, s.Inv → s.HasSlot slot → s.HasList slot runs → (BitVec.ofNat 64 runs.length).toNat = runs.length)

/-- R110. TOTAL: NoList where the slot is ABSENT, and otherwise {RES1, RES0} is the exact sum of the runs, which never
wraps; the list is not changed. -/
def Obligations.TotalReturnsTheExactSum : Prop :=
  ∀ (s : State) (slot : SlotIndex),
    ((s.slotAt slot).present = false → exec (.total slot) s = .next { s with status := 2 }) ∧
    (∀ runs, s.HasList slot runs →
      ∃ r0 r1 : Word, exec (.total slot) s = .next { s with res0 := r0, res1 := r1, status := 0 } ∧
        r0.toNat = (runs.map BitVec.toNat).sum % 2 ^ 64 ∧
        (s.Inv → s.HasSlot slot → r1.toNat * 2 ^ 64 + r0.toNat = (runs.map BitVec.toNat).sum))

/-- The total of a slot is below 2^96, because MAX_RUNS ≤ 2^32 and a run is below 2^64 (R33). -/
def Obligations.SlotTotalIsBelow2Pow96 : Prop :=
  ∀ (s : State) (slot : SlotIndex), s.Inv → totalBits (s.slotAt slot).runs < 2 ^ 96

/-- The conditions of R32 and what enters them, when the command succeeds: CREATE, APPEND and DESERIALIZE make the slot
LIVE, ENCODE keeps it LIVE, DESTROY makes it ABSENT, DECODE makes it DRAINED, POPFRONT leaves it DRAINED exactly when it
took the last run, and SIZE, TOTAL and SERIALIZE change nothing. -/
def Obligations.SlotConditionTransitions : Prop :=
  ∀ (s t : State) (i : Instr), s.HasSlot i.slot → exec i s = .next t → t.status = 0 →
    (t.slotAt i.slot).condition =
      match i with
      | .create _ => .live
      | .destroy _ => .absent
      | .append _ => .live
      | .popfront slot => if (s.slotAt slot).runs.length = 1 then .drained else .live
      | .size slot => (s.slotAt slot).condition
      | .total slot => (s.slotAt slot).condition
      | .encode _ => .live
      | .decode _ => .drained
      | .serialize _ => .live
      | .deserialize _ => .live

/-! ## The bitstream commands (41_bitstream.md) -/

/-- R10. Stream bit j of a byte sequence is bit 7 - (j mod 8) of byte j div 8, and there are 8 of them a byte. -/
def Obligations.StreamBitOrder : Prop :=
  ∀ bs : List Byte, (streamBits bs).length = 8 * bs.length ∧
    ∀ j, j < 8 * bs.length → (streamBits bs)[j]? = (bs[j / 8]?).map (fun b => b.getLsbD (7 - j % 8))

/-- R130. ENCODE: NoList, ListEmpty, BadAddress (no wrap), then the model's fault where the window holds an unwritten
byte, then AllocationFailure where the list would exceed MAX_RUNS; otherwise the slot holds the runs that the bits of
the window, in stream order, make of its list. RES0, RES1, BUF and everything else stay. -/
def Obligations.EncodeAppendsTheWindowBits : Prop :=
  ∀ (s : State) (slot : SlotIndex),
    ((s.slotAt slot).present = false → exec (.encode slot) s = .next { s with status := 2 }) ∧
    (s.HasList slot [] → exec (.encode slot) s = .next { s with status := 3 }) ∧
    (∀ runs, s.HasList slot runs → runs ≠ [] →
      (s.params.bufBytes < s.argA.toNat + s.argB.toNat → exec (.encode slot) s = .next { s with status := 4 }) ∧
      (s.argA.toNat + s.argB.toNat ≤ s.params.bufBytes → ¬s.Written s.argA.toNat s.argB.toNat →
        ∃ a, exec (.encode slot) s = .fault (.unwrittenByte a) ∧ s.argA.toNat ≤ a ∧
          a < s.argA.toNat + s.argB.toNat ∧ s.buf.read a = none) ∧
      (∀ input, s.Source input →
        (s.params.maxRuns < (encodeBits runs (streamBits input)).length →
          exec (.encode slot) s = .next { s with status := 5 }) ∧
        ((encodeBits runs (streamBits input)).length ≤ s.params.maxRuns →
          exec (.encode slot) s =
            .next { s with
              slots := s.slots.set slot.toNat { present := true, runs := encodeBits runs (streamBits input) }
              status := 0 })))

/-- R132. One bit of the encoder: a bit of the tail's polarity lengthens the tail, or, where the tail is
2^64 - 1, appends the runs 0 and 1; a bit of the other polarity appends a run of 1. -/
def Obligations.EncodeBitRule : Prop :=
  ∀ (init : List Word) (tail : Word) (b : Bool),
    encodeBit (init ++ [tail]) b =
      if b = decide (((init ++ [tail]).length - 1) % 2 = 1) then
        if tail.toNat < 2 ^ 64 - 1 then init ++ [BitVec.ofNat 64 (tail.toNat + 1)] else init ++ [tail] ++ [0, 1]
      else init ++ [tail] ++ [1]

/-- R134. Encoding is resumable: ENCODE of a window A and then of a window B gives the same list as one ENCODE of a
window A ++ B, if none of them raises. -/
def Obligations.EncodeIsResumable : Prop :=
  ∀ (s t1 t2 t3 : State) (slot : SlotIndex) (a n a' n' a'' n'' : Word) (A B : List Byte),
    State.Source { s with argA := a, argB := n } A → State.Source { s with argA := a', argB := n' } B →
    State.Source { s with argA := a'', argB := n'' } (A ++ B) →
    exec (.encode slot) { s with argA := a, argB := n } = .next t1 → t1.status = 0 →
    exec (.encode slot) { t1 with argA := a', argB := n' } = .next t2 → t2.status = 0 →
    exec (.encode slot) { s with argA := a'', argB := n'' } = .next t3 → t3.status = 0 → s.HasSlot slot →
    t2.slotAt slot = t3.slotAt slot

/-- R136. A successful ENCODE appends exactly the stream bits of its input to the bit sequence of the list; on a freshly
created list the bit sequence is then that of the input. -/
def Obligations.EncodePreservesTheBitSequence : Prop :=
  ∀ (s t : State) (slot : SlotIndex) (input : List Byte), s.HasSlot slot → s.Source input →
    exec (.encode slot) s = .next t → t.status = 0 →
    runBits (t.slotAt slot).runs = runBits (s.slotAt slot).runs ++ streamBits input ∧
    (s.HasList slot [0] → runBits (t.slotAt slot).runs = streamBits input)

/-- R141. The bit sequence of a list is, run by run, the run's count of copies of its polarity i mod 2, so its length is
the total; a run of 0 adds nothing but flips the polarity. -/
def Obligations.RunExpansion : Prop :=
  ∀ runs : List Word,
    runBits runs = runs.zipIdx.flatMap (fun x => List.replicate x.1.toNat (decide (x.2 % 2 = 1))) ∧
    (runBits runs).length = (runs.map BitVec.toNat).sum

/-- R142. Packing: n bytes in which stream bit j is q[j], and 0 after the end of q. -/
def Obligations.PackPlacesEveryBit : Prop :=
  ∀ (q : List Bool) (n : Nat), q.length ≤ 8 * n →
    (pack q n).length = n ∧
    ∀ j, j < 8 * n → ((pack q n)[j / 8]?).map (fun b => b.getLsbD (7 - j % 8)) = some (q.getD j false)

/-- R140. DECODE: NoList, ListEmpty, BadAddress, then AllocationFailure where the output is longer than DST_CAP;
otherwise the bytes from DST are the packed bits of the runs, the slot is DRAINED, RES0 is the number of bytes and RES1
the number of bits. Every byte outside the output and everything else stay. -/
def Obligations.DecodeWritesTheBits : Prop :=
  ∀ (s : State) (slot : SlotIndex),
    ((s.slotAt slot).present = false → exec (.decode slot) s = .next { s with status := 2 }) ∧
    (s.HasList slot [] → exec (.decode slot) s = .next { s with status := 3 }) ∧
    (∀ runs, s.HasList slot runs → runs ≠ [] →
      let t := (runs.map BitVec.toNat).sum
      let n := (t + 7) / 8
      (s.params.bufBytes < s.argC.toNat + s.argD.toNat → exec (.decode slot) s = .next { s with status := 4 }) ∧
      (s.argC.toNat + s.argD.toNat ≤ s.params.bufBytes → s.argD.toNat < n →
        exec (.decode slot) s = .next { s with status := 5 }) ∧
      (s.argC.toNat + s.argD.toNat ≤ s.params.bufBytes → n ≤ s.argD.toNat →
        ∃ m : Memory,
          exec (.decode slot) s =
            .next { s with
              slots := s.slots.set slot.toNat { present := true, runs := [] }
              buf := m, res0 := BitVec.ofNat 64 n, res1 := BitVec.ofNat 64 t, status := 0 } ∧
          (∀ k, k < n → m.read (s.argC.toNat + k) = (pack (runBits runs) n)[k]?) ∧
          (∀ a, (a < s.argC.toNat ∨ s.argC.toNat + n ≤ a) → m.read a = s.buf.read a) ∧
          (s.Inv → (BitVec.ofNat 64 n).toNat = n ∧ (BitVec.ofNat 64 t).toNat = t)))

/-- Round trip (R145, first sentence): on a freshly created slot, ENCODE of B and then DECODE with room for len(B) bytes writes exactly B
and returns len(B) and 8·len(B). -/
def Obligations.EncodeDecodeRoundTrip : Prop :=
  ∀ (s t : State) (slot : SlotIndex) (B : List Byte) (dst cap : Word), s.Inv → s.HasSlot slot →
    s.HasList slot [0] → s.Source B → exec (.encode slot) s = .next t → t.status = 0 →
    dst.toNat + cap.toNat ≤ s.params.bufBytes → B.length ≤ cap.toNat →
    ∃ u, exec (.decode slot) { t with argC := dst, argD := cap } = .next u ∧ u.status = 0 ∧ u.Holds dst.toNat B ∧
      u.res0.toNat = B.length ∧ u.res1.toNat = 8 * B.length

/-- POPFRONT shifts the polarity: the bits of what is left are the complement of the bits they were (R243). -/
def Obligations.PoppedListHasComplementedBits : Prop :=
  ∀ (s t : State) (slot : SlotIndex) (v : Word) (rest : List Word), s.HasSlot slot → s.HasList slot (v :: rest) →
    exec (.popfront slot) s = .next t →
    runBits (v :: rest) = List.replicate v.toNat false ++ (runBits (t.slotAt slot).runs).map not

/-! ## The wire codec (30_encoding.md section 2, 42_wire_codec.md) -/

/-- The header of a pair: P, 0 and the length in 2 bits for a length 1 .. 3; P, 1 and the length in 6 bits
for 4 .. 63; P, 1 and the field 0 for 64 (R81, R82, and the choice of R83). -/
def Obligations.HeaderLayout : Prop :=
  ∀ p : Pair,
    (1 ≤ p.length → p.length ≤ 3 → header p = [p.bit, false, p.length.testBit 1, p.length.testBit 0]) ∧
    (4 ≤ p.length → p.length ≤ 63 → header p =
      [p.bit, true, p.length.testBit 5, p.length.testBit 4, p.length.testBit 3, p.length.testBit 2,
        p.length.testBit 1, p.length.testBit 0]) ∧
    (p.length = 64 → header p = [p.bit, true, false, false, false, false, false, false])

/-- R161. The pairs of a count: maximal stretches of its 64 bits from bit 63 down, each 1 to 64 long, 64 in all, with
consecutive pairs of different bits. -/
def Obligations.PairSplit : Prop :=
  ∀ c : Word,
    (pairs c).flatMap (fun p => List.replicate p.length p.bit) = (List.range 64).map (fun k => c.getLsbD (63 - k)) ∧
    ((pairs c).map Pair.length).sum = 64 ∧ (∀ p ∈ pairs c, 1 ≤ p.length ∧ p.length ≤ 64) ∧
    (∀ (k : Nat) (p q : Pair), (pairs c)[k]? = some p → (pairs c)[k + 1]? = some q → p.bit ≠ q.bit) ∧
    ((pairs c)[0]?).map Pair.bit = some (c.getLsbD 63)

/-- R163. The serializer's output is ceil_div(len(hb), 8) bytes: the header bits, and one `0000` nibble exactly when
they are an odd number of nibbles. -/
def Obligations.TailPadding : Prop :=
  ∀ runs : List Word,
    (wireBytes runs).length = ((headers runs).length + 7) / 8 ∧
    ((headers runs).length % 8 = 4 → streamBits (wireBytes runs) = headers runs ++ [false, false, false, false]) ∧
    ((headers runs).length % 8 ≠ 4 → (headers runs).length % 8 = 0 ∧ streamBits (wireBytes runs) = headers runs)

/-- A count group takes 8 to 256 header bits, and 8 exactly for the counts 0 and 2^64 - 1; so a list serializes to at
most 32 bytes a run (R88, R164). -/
def Obligations.WireSizeBounds : Prop :=
  (∀ c : Word, 8 ≤ (countGroup c).length ∧ (countGroup c).length ≤ 256 ∧
    ((countGroup c).length = 8 ↔ c = 0 ∨ c = BitVec.allOnes 64)) ∧
  (∀ runs : List Word, (wireBytes runs).length ≤ 32 * runs.length)

/-- R165. The byte-level view with the flag `complete` gives the same bytes as the bit stream of the headers. -/
def Obligations.PackingViewsAgree : Prop :=
  ∀ runs : List Word, packedBytes runs = wireBytes runs

/-- R160. SERIALIZE: NoList, ListEmpty, BadAddress, then AllocationFailure where the output is longer than DST_CAP;
otherwise the bytes from DST are the wire form, RES0 is the number of bytes and RES1 the number of header bits. The list,
every byte outside the output and everything else stay. -/
def Obligations.SerializeWritesTheWireForm : Prop :=
  ∀ (s : State) (slot : SlotIndex),
    ((s.slotAt slot).present = false → exec (.serialize slot) s = .next { s with status := 2 }) ∧
    (s.HasList slot [] → exec (.serialize slot) s = .next { s with status := 3 }) ∧
    (∀ runs, s.HasList slot runs → runs ≠ [] →
      let n := (wireBytes runs).length
      (s.params.bufBytes < s.argC.toNat + s.argD.toNat → exec (.serialize slot) s = .next { s with status := 4 }) ∧
      (s.argC.toNat + s.argD.toNat ≤ s.params.bufBytes → s.argD.toNat < n →
        exec (.serialize slot) s = .next { s with status := 5 }) ∧
      (s.argC.toNat + s.argD.toNat ≤ s.params.bufBytes → n ≤ s.argD.toNat →
        ∃ m : Memory,
          exec (.serialize slot) s =
            .next { s with
              buf := m, res0 := BitVec.ofNat 64 n, res1 := BitVec.ofNat 64 (headers runs).length, status := 0 } ∧
          (∀ k, k < n → m.read (s.argC.toNat + k) = (wireBytes runs)[k]?) ∧
          (∀ a, (a < s.argC.toNat ∨ s.argC.toNat + n ≤ a) → m.read a = s.buf.read a)))

/-- R170. DESERIALIZE: BadAddress, then the model's fault where the window holds an unwritten byte, then MalformedInput,
then AllocationFailure; otherwise the slot holds exactly the counts of the stream, whatever it held before, RES0 is their
number and RES1 the number of header bits. BUF and everything else stay. NoList and ListEmpty are never raised. -/
def Obligations.DeserializeRebuildsTheList : Prop :=
  ∀ (s : State) (slot : SlotIndex),
    (s.params.bufBytes < s.argA.toNat + s.argB.toNat → exec (.deserialize slot) s = .next { s with status := 4 }) ∧
    (s.argA.toNat + s.argB.toNat ≤ s.params.bufBytes → ¬s.Written s.argA.toNat s.argB.toNat →
      ∃ a, exec (.deserialize slot) s = .fault (.unwrittenByte a) ∧ s.argA.toNat ≤ a ∧
        a < s.argA.toNat + s.argB.toNat ∧ s.buf.read a = none) ∧
    (∀ input, s.Source input →
      (parse input = none → exec (.deserialize slot) s = .next { s with status := 6 }) ∧
      (∀ counts used, parse input = some (counts, used) → s.params.maxRuns < counts.length →
        exec (.deserialize slot) s = .next { s with status := 5 }) ∧
      (∀ counts used, parse input = some (counts, used) → counts.length ≤ s.params.maxRuns →
        exec (.deserialize slot) s =
          .next { s with
            slots := s.slots.set slot.toNat { present := true, runs := counts }
            res0 := BitVec.ofNat 64 counts.length, res1 := BitVec.ofNat 64 used, status := 0 }))

/-- The parser accepts exactly the wire streams of the grammar R80 - R86, with the counts and the header bits they have;
every other input is MalformedInput (R174 - R176). In particular non-canonical headers are accepted (R177) and a stream
has one reading. -/
def Obligations.ParserAcceptsExactlyTheWireFormat : Prop :=
  ∀ (input : List Byte) (counts : List Word) (used : Nat),
    parse input = some (counts, used) ↔ IsWireStream (streamBits input) counts used

/-- R178. Round trip: for a LIVE list of any runs, DESERIALIZE of the bytes that SERIALIZE wrote, into any slot, gives
exactly the same runs, with the same RES1. -/
def Obligations.SerializeDeserializeRoundTrip : Prop :=
  ∀ (s t : State) (a b : SlotIndex) (runs : List Word), s.Inv → s.HasSlot a → s.HasSlot b →
    s.HasList a runs → exec (.serialize a) s = .next t → t.status = 0 →
    ∃ u, exec (.deserialize b) { t with argA := t.argC, argB := t.res0 } = .next u ∧ u.status = 0 ∧
      u.HasList b runs ∧ u.res0.toNat = runs.length ∧ u.res1 = t.res1

/-- R179. Truncation: a serialization without its last byte raises MalformedInput, unless the list has at least two runs
and the byte was the whole last group, which is so exactly when the last run is 0 or 2^64 - 1 and the header bits before
it are a whole number of bytes; then it is the list without its last run. -/
def Obligations.TruncationIsDetectedButForOneCase : Prop :=
  ∀ (s : State) (slot : SlotIndex) (init : List Word) (last : Word), init.length + 1 ≤ s.params.maxRuns →
    s.Source (wireBytes (init ++ [last])).dropLast →
    let lost := init ≠ [] ∧ (last = 0 ∨ last = BitVec.allOnes 64) ∧ (headers init).length % 8 = 0
    (¬lost → exec (.deserialize slot) s = .next { s with status := 6 }) ∧
    (lost → exec (.deserialize slot) s =
      .next { s with
        slots := s.slots.set slot.toNat { present := true, runs := init }
        res0 := BitVec.ofNat 64 init.length, res1 := BitVec.ofNat 64 (headers init).length, status := 0 })

/-- R180. Concatenation: where the serialization of R1 has no padding, its bytes followed by those of R2 deserialize to
R1 ++ R2; where it has padding, the concatenation is MalformedInput. -/
def Obligations.ConcatenatedStreams : Prop :=
  ∀ (s : State) (slot : SlotIndex) (R1 R2 : List Word), R1 ≠ [] → R2 ≠ [] →
    (R1 ++ R2).length ≤ s.params.maxRuns → s.Source (wireBytes R1 ++ wireBytes R2) →
    ((headers R1).length % 8 = 0 → ∃ t, exec (.deserialize slot) s = .next t ∧
      t = { s with slots := s.slots.set slot.toNat { present := true, runs := R1 ++ R2 }
                   res0 := BitVec.ofNat 64 (R1 ++ R2).length
                   res1 := BitVec.ofNat 64 ((headers R1).length + (headers R2).length)
                   status := 0 }) ∧
    ((headers R1).length % 8 ≠ 0 → exec (.deserialize slot) s = .next { s with status := 6 })

/-! ## Host syntax (30_encoding.md section 3) -/

/-- R91. Every pseudo-instruction expands to the listed transactions, in the order given; without its trailing operands
it is the bare command. -/
def Obligations.PseudoInstructionsExpand : Prop :=
  ∀ (k : SlotIndex) (a b : Word),
    let word (op : Nat) : Word := BitVec.ofNat 64 (k.toNat * 256 + op)
    (HostLine.command (.create k)).expand = [.regWrite 0x00 (word 0x01)] ∧
    (HostLine.command (.destroy k)).expand = [.regWrite 0x00 (word 0x02)] ∧
    (HostLine.command (.append k)).expand = [.regWrite 0x00 (word 0x03)] ∧
    (HostLine.command (.popfront k)).expand = [.regWrite 0x00 (word 0x04)] ∧
    (HostLine.command (.size k)).expand = [.regWrite 0x00 (word 0x05)] ∧
    (HostLine.command (.total k)).expand = [.regWrite 0x00 (word 0x06)] ∧
    (HostLine.command (.encode k)).expand = [.regWrite 0x00 (word 0x10)] ∧
    (HostLine.command (.decode k)).expand = [.regWrite 0x00 (word 0x11)] ∧
    (HostLine.command (.serialize k)).expand = [.regWrite 0x00 (word 0x20)] ∧
    (HostLine.command (.deserialize k)).expand = [.regWrite 0x00 (word 0x21)] ∧
    (HostLine.appendValue k a).expand = [.regWrite 0x08 a, .regWrite 0x00 (word 0x03)] ∧
    (HostLine.encodeFrom k a b).expand = [.regWrite 0x08 a, .regWrite 0x10 b, .regWrite 0x00 (word 0x10)] ∧
    (HostLine.decodeTo k a b).expand = [.regWrite 0x18 a, .regWrite 0x20 b, .regWrite 0x00 (word 0x11)] ∧
    (HostLine.serializeTo k a b).expand = [.regWrite 0x18 a, .regWrite 0x20 b, .regWrite 0x00 (word 0x20)] ∧
    (HostLine.deserializeFrom k a b).expand = [.regWrite 0x08 a, .regWrite 0x10 b, .regWrite 0x00 (word 0x21)] ∧
    HostLine.check.expand = [.regRead 0x38]
end

