-- ==== Sys2Proof/Laws/Bits.lean ====
section
/-! SUPPORT. The laws of bit strings and bytes. -/

namespace Sys2Proof.Machine

@[simp] theorem bitsOfNat_length (n v : Nat) : (bitsOfNat n v).length = n := by
  induction n <;> simp [bitsOfNat, *]

/-- Bit k of the string is bit n - 1 - k of the number. -/
theorem bitsOfNat_getElem? (n v k : Nat) (h : k < n) : (bitsOfNat n v)[k]? = some (v.testBit (n - 1 - k)) := by
  induction n generalizing k with
  | zero => omega
  | succ n ih =>
    cases k with
    | zero => simp [bitsOfNat]
    | succ k =>
      rw [bitsOfNat, List.getElem?_cons_succ, ih k (by omega)]
      congr 2
      omega

@[simp] theorem byteBits_length (b : Byte) : (byteBits b).length = 8 := bitsOfNat_length 8 _

@[simp] theorem wordBits_length (w : Word) : (wordBits w).length = 64 := bitsOfNat_length 64 _

@[simp] theorem streamBits_nil : streamBits [] = [] := rfl

@[simp] theorem streamBits_cons (b : Byte) (bs : List Byte) : streamBits (b :: bs) = byteBits b ++ streamBits bs := rfl

@[simp] theorem streamBits_append (as bs : List Byte) : streamBits (as ++ bs) = streamBits as ++ streamBits bs :=
  List.flatMap_append

@[simp] theorem pack_zero (q : List Bool) : pack q 0 = [] := rfl

@[simp] theorem pack_succ (q : List Bool) (n : Nat) : pack q (n + 1) = byteOfBits q :: pack (q.drop 8) n := rfl

/-- Prepending a bit adds its weight. -/
theorem natOfBits_append (p q : List Bool) : natOfBits (p ++ q) = natOfBits p * 2 ^ q.length + natOfBits q := by
  unfold natOfBits
  rw [List.foldl_append]
  generalize p.foldl (fun acc b => 2 * acc + b.toNat) 0 = a
  induction q generalizing a with
  | nil => simp
  | cons b q ih =>
    rw [List.foldl_cons, List.foldl_cons, ih, ih (2 * 0 + b.toNat), List.length_cons, Nat.pow_succ]
    ring

end Sys2Proof.Machine
end

