-- ==== Sys2Proof/Laws/Memory.lean ====
section
/-! SUPPORT. The laws of BUF: a read after a write, and that every operation keeps the canonical form. -/

namespace Sys2Proof.Machine

theorem Memory.read_write_same (m : Memory) (a : Nat) (b : Byte) : (m.write a b).read a = some b := by
  induction m with
  | nil => simp [Memory.write, Memory.read]
  | cons x rest ih =>
    obtain ⟨c, v⟩ := x
    simp only [Memory.write]
    split
    · simp [Memory.read]
    · split
      · simp [Memory.read]
      · rename_i h
        simp [Memory.read, Ne.symm h, ih]

theorem Memory.read_write_ne (m : Memory) (a c : Nat) (b : Byte) (h : c ≠ a) : (m.write a b).read c = m.read c := by
  induction m with
  | nil => simp [Memory.write, Memory.read, Ne.symm h]
  | cons x rest ih =>
    obtain ⟨d, v⟩ := x
    simp only [Memory.write]
    split
    · simp [Memory.read, Ne.symm h]
    · split
      · rename_i e
        simp [Memory.read, ← e, Ne.symm h]
      · simp [Memory.read, ih]

/-- An address listed after a write is the one written or was listed before. -/
theorem Memory.mem_write (m : Memory) (a : Nat) (b : Byte) (x : Host.Cell) (h : x ∈ m.write a b) :
    x = (a, b) ∨ x ∈ m := by
  induction m with
  | nil => simpa [Memory.write] using h
  | cons y rest ih =>
    obtain ⟨c, v⟩ := y
    simp only [Memory.write] at h
    split at h
    · simpa using h
    · split at h
      · simp only [List.mem_cons] at h ⊢
        tauto
      · simp only [List.mem_cons] at h ⊢
        rcases h with h | h
        · exact .inr (.inl h)
        · rcases ih h with h | h
          · exact .inl h
          · exact .inr (.inr h)

theorem Memory.write_wf (m : Memory) (a : Nat) (b : Byte) (h : m.wf) : (m.write a b).wf := by
  induction m with
  | nil => simp [Memory.write, Memory.wf]
  | cons x rest ih =>
    obtain ⟨c, v⟩ := x
    obtain ⟨hx, hrest⟩ := List.pairwise_cons.mp h
    simp only [Memory.write]
    split
    · rename_i hac
      refine List.pairwise_cons.mpr ⟨fun y hy => ?_, h⟩
      rcases List.mem_cons.mp hy with rfl | hy
      · exact hac
      · exact Nat.lt_trans hac (hx y hy)
    · split
      · rename_i e
        subst e
        exact List.pairwise_cons.mpr ⟨hx, hrest⟩
      · rename_i hlt hne
        refine List.pairwise_cons.mpr ⟨fun y hy => ?_, ih hrest⟩
        rcases Memory.mem_write rest a b y hy with rfl | hy
        · show c < a
          omega
        · exact hx y hy

theorem Memory.writeBytes_wf (bs : List Byte) : ∀ (m : Memory) (a : Nat), m.wf → (m.writeBytes a bs).wf := by
  induction bs with
  | nil => exact fun _ _ h => h
  | cons b bs ih => exact fun m a h => ih _ _ (Memory.write_wf m a b h)

theorem Memory.mem_writeBytes (bs : List Byte) : ∀ (m : Memory) (a : Nat) (x : Host.Cell), x ∈ m.writeBytes a bs →
    (a ≤ x.1 ∧ x.1 < a + bs.length) ∨ x ∈ m := by
  induction bs with
  | nil => exact fun _ _ _ h => .inr h
  | cons b bs ih =>
    intro m a x h
    rcases ih _ _ x h with ⟨h1, h2⟩ | h
    · left
      simp only [List.length_cons]
      omega
    · rcases Memory.mem_write m a b x h with rfl | h
      · left
        simp only [List.length_cons]
        omega
      · exact .inr h

/-- A read outside the bytes written sees what it saw before. -/
theorem Memory.read_writeBytes_outside (bs : List Byte) : ∀ (m : Memory) (a c : Nat), (c < a ∨ a + bs.length ≤ c) →
    (m.writeBytes a bs).read c = m.read c := by
  induction bs with
  | nil => exact fun _ _ _ _ => rfl
  | cons b bs ih =>
    intro m a c h
    simp only [List.length_cons] at h
    rw [Memory.writeBytes, ih _ _ _ (by omega), Memory.read_write_ne _ _ _ _ (by omega)]

/-- A read inside the bytes written sees the byte written there. -/
theorem Memory.read_writeBytes_inside (bs : List Byte) : ∀ (m : Memory) (a k : Nat), k < bs.length →
    (m.writeBytes a bs).read (a + k) = bs[k]? := by
  induction bs with
  | nil => simp
  | cons b bs ih =>
    intro m a k h
    rw [Memory.writeBytes]
    cases k with
    | zero =>
      rw [Memory.read_writeBytes_outside _ _ _ _ (by omega), Nat.add_zero, Memory.read_write_same]
      rfl
    | succ k =>
      simp only [List.length_cons] at h
      rw [show a + (k + 1) = a + 1 + k by omega, ih _ _ _ (by omega)]
      rfl

/-- What a read of a window gives: its bytes, each holding a value. -/
theorem Memory.readBytes_ok (m : Memory) (n : Nat) : ∀ (a : Nat) (bs : List Byte), m.readBytes a n = .ok bs ↔
    bs.length = n ∧ ∀ k, k < bs.length → m.read (a + k) = bs[k]? := by
  induction n with
  | zero =>
    intro a bs
    cases bs <;> simp [Memory.readBytes]
  | succ n ih =>
    intro a bs
    simp only [Memory.readBytes]
    cases hm : m.read a with
    | none =>
      simp only [reduceCtorEq, false_iff, not_and]
      intro hl hk
      have := hk 0 (by omega)
      rw [Nat.add_zero, hm] at this
      cases bs <;> simp at hl this
    | some b =>
      cases bs with
      | nil =>
        simp only [List.length_nil]
        cases m.readBytes (a + 1) n <;> simp
      | cons c cs =>
        have key := ih (a + 1) cs
        cases hr : m.readBytes (a + 1) n with
        | error e =>
          rw [hr] at key
          simp only [reduceCtorEq, false_iff, not_and] at key ⊢
          intro hl hk
          refine key (by simpa using hl) fun k hk' => ?_
          have := hk (k + 1) (by simpa using hk')
          rwa [show a + (k + 1) = a + 1 + k by omega, List.getElem?_cons_succ] at this
        | ok ds =>
          rw [hr] at key
          simp only [Except.ok.injEq, List.cons.injEq, List.length_cons] at key ⊢
          constructor
          · rintro ⟨rfl, h⟩
            obtain ⟨hl, hk⟩ := key.mp h
            refine ⟨by omega, fun k hk' => ?_⟩
            cases k with
            | zero => simpa using hm
            | succ k =>
              rw [show a + (k + 1) = a + 1 + k by omega, List.getElem?_cons_succ]
              exact hk k (by omega)
          · rintro ⟨hl, hk⟩
            have h0 := hk 0 (by omega)
            rw [Nat.add_zero, hm] at h0
            refine ⟨by simpa using h0, key.mpr ⟨by omega, fun k hk' => ?_⟩⟩
            have := hk (k + 1) (by omega)
            rwa [show a + (k + 1) = a + 1 + k by omega, List.getElem?_cons_succ] at this

/-- What stops a read of a window: an address in it that holds no value. -/
theorem Memory.readBytes_error (m : Memory) (n : Nat) : ∀ (a e : Nat), m.readBytes a n = .error e →
    a ≤ e ∧ e < a + n ∧ m.read e = none := by
  induction n with
  | zero => intro a e h; cases h
  | succ n ih =>
    intro a e h
    simp only [Memory.readBytes] at h
    cases hm : m.read a with
    | none =>
      rw [hm] at h
      cases h
      exact ⟨by omega, by omega, hm⟩
    | some b =>
      rw [hm] at h
      cases hr : m.readBytes (a + 1) n with
      | error e' =>
        rw [hr] at h
        cases h
        have := ih _ _ hr
        exact ⟨by omega, by omega, this.2.2⟩
      | ok bs =>
        rw [hr] at h
        cases h

theorem Memory.read_mem (m : Memory) (a : Nat) (b : Byte) (h : m.read a = some b) : (a, b) ∈ m := by
  induction m with
  | nil => cases h
  | cons x rest ih =>
    obtain ⟨c, v⟩ := x
    simp only [Memory.read] at h
    split at h
    · rename_i e
      cases h
      subst e
      exact List.mem_cons_self
    · exact List.mem_cons_of_mem _ (ih h)

end Sys2Proof.Machine
end

