-- ==== Sys2Proof/Laws/State.lean ====
section
/-! SUPPORT. One lemma per field per update of State, so that no later proof unfolds a record update, and the laws of
the register and slot accessors. -/

namespace Sys2Proof.Machine

variable (s : State)

/-! ## setResults -/

@[simp] theorem State.setResults_params (r0 r1 : Word) : (s.setResults r0 r1).params = s.params := rfl
@[simp] theorem State.setResults_cmd (r0 r1 : Word) : (s.setResults r0 r1).cmd = s.cmd := rfl
@[simp] theorem State.setResults_argA (r0 r1 : Word) : (s.setResults r0 r1).argA = s.argA := rfl
@[simp] theorem State.setResults_argB (r0 r1 : Word) : (s.setResults r0 r1).argB = s.argB := rfl
@[simp] theorem State.setResults_argC (r0 r1 : Word) : (s.setResults r0 r1).argC = s.argC := rfl
@[simp] theorem State.setResults_argD (r0 r1 : Word) : (s.setResults r0 r1).argD = s.argD := rfl
@[simp] theorem State.setResults_res0 (r0 r1 : Word) : (s.setResults r0 r1).res0 = r0 := rfl
@[simp] theorem State.setResults_res1 (r0 r1 : Word) : (s.setResults r0 r1).res1 = r1 := rfl
@[simp] theorem State.setResults_status (r0 r1 : Word) : (s.setResults r0 r1).status = s.status := rfl
@[simp] theorem State.setResults_slots (r0 r1 : Word) : (s.setResults r0 r1).slots = s.slots := rfl
@[simp] theorem State.setResults_buf (r0 r1 : Word) : (s.setResults r0 r1).buf = s.buf := rfl
@[simp] theorem State.setResults_inputs (r0 r1 : Word) : (s.setResults r0 r1).inputs = s.inputs := rfl
@[simp] theorem State.setResults_reply (r0 r1 : Word) : (s.setResults r0 r1).reply = s.reply := rfl

/-! ## setStatus -/

@[simp] theorem State.setStatus_params (v : Word) : (s.setStatus v).params = s.params := rfl
@[simp] theorem State.setStatus_cmd (v : Word) : (s.setStatus v).cmd = s.cmd := rfl
@[simp] theorem State.setStatus_argA (v : Word) : (s.setStatus v).argA = s.argA := rfl
@[simp] theorem State.setStatus_argB (v : Word) : (s.setStatus v).argB = s.argB := rfl
@[simp] theorem State.setStatus_argC (v : Word) : (s.setStatus v).argC = s.argC := rfl
@[simp] theorem State.setStatus_argD (v : Word) : (s.setStatus v).argD = s.argD := rfl
@[simp] theorem State.setStatus_res0 (v : Word) : (s.setStatus v).res0 = s.res0 := rfl
@[simp] theorem State.setStatus_res1 (v : Word) : (s.setStatus v).res1 = s.res1 := rfl
@[simp] theorem State.setStatus_status (v : Word) : (s.setStatus v).status = v := rfl
@[simp] theorem State.setStatus_slots (v : Word) : (s.setStatus v).slots = s.slots := rfl
@[simp] theorem State.setStatus_buf (v : Word) : (s.setStatus v).buf = s.buf := rfl
@[simp] theorem State.setStatus_inputs (v : Word) : (s.setStatus v).inputs = s.inputs := rfl
@[simp] theorem State.setStatus_reply (v : Word) : (s.setStatus v).reply = s.reply := rfl

/-! ## setBuf -/

@[simp] theorem State.setBuf_params (m : Memory) : (s.setBuf m).params = s.params := rfl
@[simp] theorem State.setBuf_cmd (m : Memory) : (s.setBuf m).cmd = s.cmd := rfl
@[simp] theorem State.setBuf_argA (m : Memory) : (s.setBuf m).argA = s.argA := rfl
@[simp] theorem State.setBuf_argB (m : Memory) : (s.setBuf m).argB = s.argB := rfl
@[simp] theorem State.setBuf_argC (m : Memory) : (s.setBuf m).argC = s.argC := rfl
@[simp] theorem State.setBuf_argD (m : Memory) : (s.setBuf m).argD = s.argD := rfl
@[simp] theorem State.setBuf_res0 (m : Memory) : (s.setBuf m).res0 = s.res0 := rfl
@[simp] theorem State.setBuf_res1 (m : Memory) : (s.setBuf m).res1 = s.res1 := rfl
@[simp] theorem State.setBuf_status (m : Memory) : (s.setBuf m).status = s.status := rfl
@[simp] theorem State.setBuf_slots (m : Memory) : (s.setBuf m).slots = s.slots := rfl
@[simp] theorem State.setBuf_buf (m : Memory) : (s.setBuf m).buf = m := rfl
@[simp] theorem State.setBuf_inputs (m : Memory) : (s.setBuf m).inputs = s.inputs := rfl
@[simp] theorem State.setBuf_reply (m : Memory) : (s.setBuf m).reply = s.reply := rfl

/-! ## setReply -/

@[simp] theorem State.setReply_params (r : Reply) : (s.setReply r).params = s.params := rfl
@[simp] theorem State.setReply_cmd (r : Reply) : (s.setReply r).cmd = s.cmd := rfl
@[simp] theorem State.setReply_argA (r : Reply) : (s.setReply r).argA = s.argA := rfl
@[simp] theorem State.setReply_argB (r : Reply) : (s.setReply r).argB = s.argB := rfl
@[simp] theorem State.setReply_argC (r : Reply) : (s.setReply r).argC = s.argC := rfl
@[simp] theorem State.setReply_argD (r : Reply) : (s.setReply r).argD = s.argD := rfl
@[simp] theorem State.setReply_res0 (r : Reply) : (s.setReply r).res0 = s.res0 := rfl
@[simp] theorem State.setReply_res1 (r : Reply) : (s.setReply r).res1 = s.res1 := rfl
@[simp] theorem State.setReply_status (r : Reply) : (s.setReply r).status = s.status := rfl
@[simp] theorem State.setReply_slots (r : Reply) : (s.setReply r).slots = s.slots := rfl
@[simp] theorem State.setReply_buf (r : Reply) : (s.setReply r).buf = s.buf := rfl
@[simp] theorem State.setReply_inputs (r : Reply) : (s.setReply r).inputs = s.inputs := rfl
@[simp] theorem State.setReply_reply (r : Reply) : (s.setReply r).reply = r := rfl

/-! ## setInputs -/

@[simp] theorem State.setInputs_params (is : List Input) : (s.setInputs is).params = s.params := rfl
@[simp] theorem State.setInputs_cmd (is : List Input) : (s.setInputs is).cmd = s.cmd := rfl
@[simp] theorem State.setInputs_argA (is : List Input) : (s.setInputs is).argA = s.argA := rfl
@[simp] theorem State.setInputs_argB (is : List Input) : (s.setInputs is).argB = s.argB := rfl
@[simp] theorem State.setInputs_argC (is : List Input) : (s.setInputs is).argC = s.argC := rfl
@[simp] theorem State.setInputs_argD (is : List Input) : (s.setInputs is).argD = s.argD := rfl
@[simp] theorem State.setInputs_res0 (is : List Input) : (s.setInputs is).res0 = s.res0 := rfl
@[simp] theorem State.setInputs_res1 (is : List Input) : (s.setInputs is).res1 = s.res1 := rfl
@[simp] theorem State.setInputs_status (is : List Input) : (s.setInputs is).status = s.status := rfl
@[simp] theorem State.setInputs_slots (is : List Input) : (s.setInputs is).slots = s.slots := rfl
@[simp] theorem State.setInputs_buf (is : List Input) : (s.setInputs is).buf = s.buf := rfl
@[simp] theorem State.setInputs_inputs (is : List Input) : (s.setInputs is).inputs = is := rfl
@[simp] theorem State.setInputs_reply (is : List Input) : (s.setInputs is).reply = s.reply := rfl

/-! ## setSlot -/

@[simp] theorem State.setSlot_params (i : SlotIndex) (l : Slot) : (s.setSlot i l).params = s.params := rfl
@[simp] theorem State.setSlot_cmd (i : SlotIndex) (l : Slot) : (s.setSlot i l).cmd = s.cmd := rfl
@[simp] theorem State.setSlot_argA (i : SlotIndex) (l : Slot) : (s.setSlot i l).argA = s.argA := rfl
@[simp] theorem State.setSlot_argB (i : SlotIndex) (l : Slot) : (s.setSlot i l).argB = s.argB := rfl
@[simp] theorem State.setSlot_argC (i : SlotIndex) (l : Slot) : (s.setSlot i l).argC = s.argC := rfl
@[simp] theorem State.setSlot_argD (i : SlotIndex) (l : Slot) : (s.setSlot i l).argD = s.argD := rfl
@[simp] theorem State.setSlot_res0 (i : SlotIndex) (l : Slot) : (s.setSlot i l).res0 = s.res0 := rfl
@[simp] theorem State.setSlot_res1 (i : SlotIndex) (l : Slot) : (s.setSlot i l).res1 = s.res1 := rfl
@[simp] theorem State.setSlot_status (i : SlotIndex) (l : Slot) : (s.setSlot i l).status = s.status := rfl
@[simp] theorem State.setSlot_slots (i : SlotIndex) (l : Slot) : (s.setSlot i l).slots = s.slots.set i.toNat l := rfl
@[simp] theorem State.setSlot_buf (i : SlotIndex) (l : Slot) : (s.setSlot i l).buf = s.buf := rfl
@[simp] theorem State.setSlot_inputs (i : SlotIndex) (l : Slot) : (s.setSlot i l).inputs = s.inputs := rfl
@[simp] theorem State.setSlot_reply (i : SlotIndex) (l : Slot) : (s.setSlot i l).reply = s.reply := rfl

/-! ## writeReg: it changes the named register alone -/

@[simp] theorem State.writeReg_params (r : Register) (v : Word) : (s.writeReg r v).params = s.params := by cases r <;> rfl
@[simp] theorem State.writeReg_slots (r : Register) (v : Word) : (s.writeReg r v).slots = s.slots := by cases r <;> rfl
@[simp] theorem State.writeReg_buf (r : Register) (v : Word) : (s.writeReg r v).buf = s.buf := by cases r <;> rfl
@[simp] theorem State.writeReg_inputs (r : Register) (v : Word) : (s.writeReg r v).inputs = s.inputs := by cases r <;> rfl
@[simp] theorem State.writeReg_reply (r : Register) (v : Word) : (s.writeReg r v).reply = s.reply := by cases r <;> rfl

@[simp] theorem State.readReg_writeReg_same (r : Register) (v : Word) : (s.writeReg r v).readReg r = v := by cases r <;> rfl

theorem State.readReg_writeReg_ne (r q : Register) (v : Word) (h : q ≠ r) : (s.writeReg r v).readReg q = s.readReg q := by
  cases r <;> cases q <;> first | rfl | exact absurd rfl h

@[simp] theorem registerAt_offset (r : Register) : registerAt r.offset = some r := by cases r <;> rfl

theorem offset_of_registerAt (off : Nat) (r : Register) (h : registerAt off = some r) : r.offset = off := by
  unfold registerAt at h
  repeat' split at h
  all_goals first | (cases h; subst_vars; rfl) | cases h

/-! ## putSlot, putBytes, putResults: the parts of a commit -/

@[simp] theorem State.putSlot_params (i : SlotIndex) (o : Option Slot) : (s.putSlot i o).params = s.params := by cases o <;> rfl
@[simp] theorem State.putSlot_cmd (i : SlotIndex) (o : Option Slot) : (s.putSlot i o).cmd = s.cmd := by cases o <;> rfl
@[simp] theorem State.putSlot_argA (i : SlotIndex) (o : Option Slot) : (s.putSlot i o).argA = s.argA := by cases o <;> rfl
@[simp] theorem State.putSlot_argB (i : SlotIndex) (o : Option Slot) : (s.putSlot i o).argB = s.argB := by cases o <;> rfl
@[simp] theorem State.putSlot_argC (i : SlotIndex) (o : Option Slot) : (s.putSlot i o).argC = s.argC := by cases o <;> rfl
@[simp] theorem State.putSlot_argD (i : SlotIndex) (o : Option Slot) : (s.putSlot i o).argD = s.argD := by cases o <;> rfl
@[simp] theorem State.putSlot_res0 (i : SlotIndex) (o : Option Slot) : (s.putSlot i o).res0 = s.res0 := by cases o <;> rfl
@[simp] theorem State.putSlot_res1 (i : SlotIndex) (o : Option Slot) : (s.putSlot i o).res1 = s.res1 := by cases o <;> rfl
@[simp] theorem State.putSlot_status (i : SlotIndex) (o : Option Slot) : (s.putSlot i o).status = s.status := by cases o <;> rfl
@[simp] theorem State.putSlot_buf (i : SlotIndex) (o : Option Slot) : (s.putSlot i o).buf = s.buf := by cases o <;> rfl
@[simp] theorem State.putSlot_inputs (i : SlotIndex) (o : Option Slot) : (s.putSlot i o).inputs = s.inputs := by cases o <;> rfl
@[simp] theorem State.putSlot_reply (i : SlotIndex) (o : Option Slot) : (s.putSlot i o).reply = s.reply := by cases o <;> rfl

@[simp] theorem State.putBytes_params (o : Option (List Byte)) : (s.putBytes o).params = s.params := by cases o <;> rfl
@[simp] theorem State.putBytes_cmd (o : Option (List Byte)) : (s.putBytes o).cmd = s.cmd := by cases o <;> rfl
@[simp] theorem State.putBytes_argA (o : Option (List Byte)) : (s.putBytes o).argA = s.argA := by cases o <;> rfl
@[simp] theorem State.putBytes_argB (o : Option (List Byte)) : (s.putBytes o).argB = s.argB := by cases o <;> rfl
@[simp] theorem State.putBytes_argC (o : Option (List Byte)) : (s.putBytes o).argC = s.argC := by cases o <;> rfl
@[simp] theorem State.putBytes_argD (o : Option (List Byte)) : (s.putBytes o).argD = s.argD := by cases o <;> rfl
@[simp] theorem State.putBytes_res0 (o : Option (List Byte)) : (s.putBytes o).res0 = s.res0 := by cases o <;> rfl
@[simp] theorem State.putBytes_res1 (o : Option (List Byte)) : (s.putBytes o).res1 = s.res1 := by cases o <;> rfl
@[simp] theorem State.putBytes_status (o : Option (List Byte)) : (s.putBytes o).status = s.status := by cases o <;> rfl
@[simp] theorem State.putBytes_slots (o : Option (List Byte)) : (s.putBytes o).slots = s.slots := by cases o <;> rfl
@[simp] theorem State.putBytes_inputs (o : Option (List Byte)) : (s.putBytes o).inputs = s.inputs := by cases o <;> rfl
@[simp] theorem State.putBytes_reply (o : Option (List Byte)) : (s.putBytes o).reply = s.reply := by cases o <;> rfl

@[simp] theorem State.putResults_params (o : Option (Word × Word)) : (s.putResults o).params = s.params := by cases o <;> rfl
@[simp] theorem State.putResults_cmd (o : Option (Word × Word)) : (s.putResults o).cmd = s.cmd := by cases o <;> rfl
@[simp] theorem State.putResults_argA (o : Option (Word × Word)) : (s.putResults o).argA = s.argA := by cases o <;> rfl
@[simp] theorem State.putResults_argB (o : Option (Word × Word)) : (s.putResults o).argB = s.argB := by cases o <;> rfl
@[simp] theorem State.putResults_argC (o : Option (Word × Word)) : (s.putResults o).argC = s.argC := by cases o <;> rfl
@[simp] theorem State.putResults_argD (o : Option (Word × Word)) : (s.putResults o).argD = s.argD := by cases o <;> rfl
@[simp] theorem State.putResults_status (o : Option (Word × Word)) : (s.putResults o).status = s.status := by cases o <;> rfl
@[simp] theorem State.putResults_slots (o : Option (Word × Word)) : (s.putResults o).slots = s.slots := by cases o <;> rfl
@[simp] theorem State.putResults_buf (o : Option (Word × Word)) : (s.putResults o).buf = s.buf := by cases o <;> rfl
@[simp] theorem State.putResults_inputs (o : Option (Word × Word)) : (s.putResults o).inputs = s.inputs := by cases o <;> rfl
@[simp] theorem State.putResults_reply (o : Option (Word × Word)) : (s.putResults o).reply = s.reply := by cases o <;> rfl

@[simp] theorem State.putSlot_none (i : SlotIndex) : s.putSlot i none = s := rfl
@[simp] theorem State.putSlot_some (i : SlotIndex) (l : Slot) : s.putSlot i (some l) = s.setSlot i l := rfl
@[simp] theorem State.putBytes_none : s.putBytes none = s := rfl
@[simp] theorem State.putBytes_some (bs : List Byte) : s.putBytes (some bs) = s.setBuf (s.buf.writeBytes s.dst bs) := rfl
@[simp] theorem State.putResults_none : s.putResults none = s := rfl
@[simp] theorem State.putResults_some (r0 r1 : Word) : s.putResults (some (r0, r1)) = s.setResults r0 r1 := rfl

/-! ## Slots -/

theorem State.slotAt_setSlot_same (i : SlotIndex) (l : Slot) (h : i.toNat < s.slots.length) :
    (s.setSlot i l).slotAt i = l := by
  simp [State.slotAt, List.getD_eq_getElem?_getD, h]

theorem State.slotAt_setSlot_ne (i j : SlotIndex) (l : Slot) (h : j ≠ i) : (s.setSlot i l).slotAt j = s.slotAt j := by
  have : i.toNat ≠ j.toNat := fun e => h (BitVec.eq_of_toNat_eq e.symm)
  simp [State.slotAt, List.getD_eq_getElem?_getD, List.getElem?_set_ne this]

theorem State.setSlot_slotAt (i : SlotIndex) : s.setSlot i (s.slotAt i) = s := by
  cases Nat.lt_or_ge i.toNat s.slots.length with
  | inl h => simp [State.setSlot, State.slotAt, List.getD_eq_getElem?_getD, h]
  | inr h => simp [State.setSlot, List.set_eq_of_length_le h]

theorem State.slotAt_mem (i : SlotIndex) (h : i.toNat < s.slots.length) : s.slotAt i ∈ s.slots := by
  simp [State.slotAt, List.getD_eq_getElem?_getD, h]

end Sys2Proof.Machine
end

