-- ==== Sys2Proof/Laws/Ops.lean ====
section
/-! SUPPORT. One lemma per shared operation that says everything it can do. -/

namespace Sys2Proof.Machine

@[simp] theorem raise_eq (e : ErrorCode) (s : State) : raise e s = .next (s.setStatus e.statusWord) := rfl

/-- Everything a command can do: commit its effect, raise one error, or fault the model. -/
theorem runCommand_cases (i : SlotIndex) (body : State → Except Halt Effect) (s : State) :
    (∃ e, body s = .ok e ∧ runCommand i body s = .next (commit i e s)) ∨
    (∃ e, body s = .error (.raise e) ∧ runCommand i body s = .next (s.setStatus e.statusWord)) ∨
    (∃ f, body s = .error (.fault f) ∧ runCommand i body s = .fault f) := by
  unfold runCommand
  cases h : body s with
  | ok e => exact .inl ⟨e, rfl, rfl⟩
  | error r =>
    cases r with
    | raise e => exact .inr (.inl ⟨e, rfl, rfl⟩)
    | fault f => exact .inr (.inr ⟨f, rfl, rfl⟩)

theorem runCommand_ok {i : SlotIndex} {body : State → Except Halt Effect} {s : State} {e : Effect}
    (h : body s = .ok e) : runCommand i body s = .next (commit i e s) := by
  simp [runCommand, h]

theorem runCommand_raise {i : SlotIndex} {body : State → Except Halt Effect} {s : State} {e : ErrorCode}
    (h : body s = .error (.raise e)) : runCommand i body s = .next (s.setStatus e.statusWord) := by
  simp [runCommand, h]

theorem runCommand_fault {i : SlotIndex} {body : State → Except Halt Effect} {s : State} {f : Fault}
    (h : body s = .error (.fault f)) : runCommand i body s = .fault f := by
  simp [runCommand, h]

theorem runCommand_not_refused (i : SlotIndex) (body : State → Except Halt Effect) (s : State) (r : Refusal) :
    runCommand i body s ≠ .refused r := by
  rcases runCommand_cases i body s with ⟨_, _, h⟩ | ⟨_, _, h⟩ | ⟨_, _, h⟩ <;> simp [h]

/-! ## commit: the fields no command writes, and STATUS -/

section
variable (i : SlotIndex) (e : Effect) (s : State)
@[simp] theorem commit_params : (commit i e s).params = s.params := by simp [commit]
@[simp] theorem commit_cmd : (commit i e s).cmd = s.cmd := by simp [commit]
@[simp] theorem commit_argA : (commit i e s).argA = s.argA := by simp [commit]
@[simp] theorem commit_argB : (commit i e s).argB = s.argB := by simp [commit]
@[simp] theorem commit_argC : (commit i e s).argC = s.argC := by simp [commit]
@[simp] theorem commit_argD : (commit i e s).argD = s.argD := by simp [commit]
@[simp] theorem commit_inputs : (commit i e s).inputs = s.inputs := by simp [commit]
@[simp] theorem commit_reply : (commit i e s).reply = s.reply := by simp [commit]
@[simp] theorem commit_status : (commit i e s).status = 0 := by simp [commit, successWord]
@[simp] theorem commit_slots : (commit i e s).slots = (s.putSlot i e.slot).slots := by simp [commit]
@[simp] theorem commit_buf : (commit i e s).buf = (s.putBytes e.bytes).buf := by
  simp only [commit, State.setStatus_buf, State.putResults_buf]
  cases e.bytes <;> simp [State.dst]
@[simp] theorem commit_res0 : (commit i e s).res0 = (s.putResults e.results).res0 := by
  simp only [commit, State.setStatus_res0]
  rcases e.results with _ | ⟨r0, r1⟩ <;> simp
@[simp] theorem commit_res1 : (commit i e s).res1 = (s.putResults e.results).res1 := by
  simp only [commit, State.setStatus_res1]
  rcases e.results with _ | ⟨r0, r1⟩ <;> simp
end

theorem commit_slots_eq (i : SlotIndex) (e : Effect) (s : State) :
    (commit i e s).slots = match e.slot with
      | none => s.slots
      | some l => s.slots.set i.toNat l := by
  rw [commit_slots]
  cases e.slot <;> rfl

theorem commit_buf_eq (i : SlotIndex) (e : Effect) (s : State) :
    (commit i e s).buf = match e.bytes with
      | none => s.buf
      | some bs => s.buf.writeBytes s.argC.toNat bs := by
  rw [commit_buf]
  cases e.bytes <;> rfl

/-! ## The operand forms -/

theorem check_true {c : Prop} [Decidable c] (e : ErrorCode) (h : c) : check c e = .ok () := by simp [check, h]

theorem check_false {c : Prop} [Decidable c] (e : ErrorCode) (h : ¬c) : check c e = .error (.raise e) := by
  simp [check, h]

theorem check_ok {c : Prop} [Decidable c] {e : ErrorCode} {u : Unit} (h : check c e = .ok u) : c := by
  unfold check at h
  split at h
  · assumption
  · cases h

theorem listOf_present {s : State} {i : SlotIndex} (h : (s.slotAt i).present = true) :
    listOf s i = .ok (s.slotAt i).runs := by simp [listOf, h]

theorem listOf_absent {s : State} {i : SlotIndex} (h : (s.slotAt i).present = false) :
    listOf s i = .error (.raise .noList) := by simp [listOf, h]

theorem listOf_of {s : State} {i : SlotIndex} {runs : List Word}
    (h : s.slotAt i = { present := true, runs := runs }) : listOf s i = .ok runs := by simp [listOf, h]

theorem listOf_ok {s : State} {i : SlotIndex} {runs : List Word} (h : listOf s i = .ok runs) :
    s.slotAt i = { present := true, runs := runs } := by
  unfold listOf at h
  split at h
  · rename_i hp
    cases h
    cases hs : s.slotAt i
    simp_all
  · cases h

theorem liveListOf_live {s : State} {i : SlotIndex} (h : (s.slotAt i).present = true) (hr : (s.slotAt i).runs ≠ []) :
    liveListOf s i = .ok (s.slotAt i).runs := by
  simp [liveListOf, listOf_present h, check_true _ hr, bind, Except.bind, pure, Except.pure]

theorem liveListOf_absent {s : State} {i : SlotIndex} (h : (s.slotAt i).present = false) :
    liveListOf s i = .error (.raise .noList) := by
  simp [liveListOf, listOf_absent h, bind, Except.bind]

theorem liveListOf_drained {s : State} {i : SlotIndex} (h : (s.slotAt i).present = true) (hr : (s.slotAt i).runs = []) :
    liveListOf s i = .error (.raise .listEmpty) := by
  simp [liveListOf, listOf_present h, hr, check, bind, Except.bind]

theorem liveListOf_of {s : State} {i : SlotIndex} {runs : List Word}
    (h : s.slotAt i = { present := true, runs := runs }) (hr : runs ≠ []) : liveListOf s i = .ok runs := by
  simp [liveListOf, listOf_of h, check_true _ hr, bind, Except.bind, pure, Except.pure]

theorem liveListOf_ok {s : State} {i : SlotIndex} {runs : List Word} (h : liveListOf s i = .ok runs) :
    s.slotAt i = { present := true, runs := runs } ∧ runs ≠ [] := by
  unfold liveListOf at h
  cases hl : listOf s i with
  | error e => simp [hl, bind, Except.bind] at h
  | ok rs =>
    by_cases hr : rs = []
    · simp [hl, check, hr, bind, Except.bind] at h
    · simp [hl, check, hr, bind, Except.bind, pure, Except.pure] at h
      subst h
      exact ⟨listOf_ok hl, hr⟩

/-- Everything a source window can give. -/
theorem sourceBytes_cases (s : State) :
    (∃ bs, sourceBytes s = .ok bs ∧ s.SrcOk ∧ s.buf.readBytes s.src s.srcLen = .ok bs) ∨
    (sourceBytes s = .error (.raise .badAddress) ∧ ¬s.SrcOk) ∨
    (∃ a, sourceBytes s = .error (.fault (.unwrittenByte a)) ∧ s.SrcOk ∧ s.buf.readBytes s.src s.srcLen = .error a) := by
  unfold sourceBytes
  by_cases h : s.SrcOk
  · cases hr : s.buf.readBytes s.src s.srcLen with
    | ok bs => exact .inl ⟨bs, by simp [check_true _ h, bind, Except.bind], h, rfl⟩
    | error a => exact .inr (.inr ⟨a, by simp [check_true _ h, bind, Except.bind], h, rfl⟩)
  · exact .inr (.inl ⟨by simp [check_false _ h, bind, Except.bind], h⟩)

/-- Everything a destination check can give, BadAddress first (R55, R211). -/
theorem checkDestination_cases (s : State) (n : Nat) :
    (checkDestination s n = .ok () ∧ s.DstOk ∧ n ≤ s.dstCap) ∨
    (checkDestination s n = .error (.raise .badAddress) ∧ ¬s.DstOk) ∨
    (checkDestination s n = .error (.raise .allocationFailure) ∧ s.DstOk ∧ s.dstCap < n) := by
  unfold checkDestination
  by_cases h : s.DstOk
  · by_cases hn : n ≤ s.dstCap
    · exact .inl ⟨by simp [check_true _ h, check_true _ hn, bind, Except.bind], h, hn⟩
    · exact .inr (.inr ⟨by simp [check_true _ h, check_false _ hn, bind, Except.bind], h, by omega⟩)
  · exact .inr (.inl ⟨by simp [check_false _ h, bind, Except.bind], h⟩)

theorem checkCapacity_ok {s : State} {n : Nat} {u : Unit} (h : checkCapacity s n = .ok u) : n ≤ s.params.maxRuns :=
  check_ok h

end Sys2Proof.Machine
end

