-- ==== Sys2Proof/Laws/Commands.lean ====
section
/-! SUPPORT. What each command computes, said once: the conditions under which its effect exists and the effect itself.
`exec_cases` then says everything a command can do. -/

namespace Sys2Proof.Machine

theorem appendEffect_ok {i : SlotIndex} {s : State} {e : Effect} (h : appendEffect i s = .ok e) :
    ∃ runs, s.slotAt i = { present := true, runs := runs } ∧ runs.length + 1 ≤ s.params.maxRuns ∧
      e = { slot := some { present := true, runs := runs ++ [s.argA] }, bytes := none, results := none } := by
  unfold appendEffect at h
  cases hl : listOf s i with
  | error x => simp [hl, bind, Except.bind] at h
  | ok runs =>
    cases hc : checkCapacity s (runs.length + 1) with
    | error x => simp [hl, hc, bind, Except.bind] at h
    | ok u =>
      simp [hl, hc, bind, Except.bind, pure, Except.pure] at h
      exact ⟨runs, listOf_ok hl, checkCapacity_ok hc, h.symm⟩

theorem popfrontEffect_ok {i : SlotIndex} {s : State} {e : Effect} (h : popfrontEffect i s = .ok e) :
    ∃ v rest, s.slotAt i = { present := true, runs := v :: rest } ∧
      e = { slot := some { present := true, runs := rest }, bytes := none, results := some (v, 0) } := by
  unfold popfrontEffect at h
  cases hl : liveListOf s i with
  | error x => simp [hl, bind, Except.bind] at h
  | ok runs =>
    obtain ⟨hs, hne⟩ := liveListOf_ok hl
    simp [hl, bind, Except.bind, pure, Except.pure] at h
    cases runs with
    | nil => exact absurd rfl hne
    | cons v rest => exact ⟨v, rest, hs, h.symm⟩

theorem sizeEffect_ok {i : SlotIndex} {s : State} {e : Effect} (h : sizeEffect i s = .ok e) :
    ∃ runs, s.slotAt i = { present := true, runs := runs } ∧
      e = { slot := none, bytes := none, results := some (BitVec.ofNat 64 runs.length, 0) } := by
  unfold sizeEffect at h
  cases hl : listOf s i with
  | error x => simp [hl, bind, Except.bind] at h
  | ok runs =>
    simp [hl, bind, Except.bind, pure, Except.pure] at h
    exact ⟨runs, listOf_ok hl, h.symm⟩

theorem totalEffect_ok {i : SlotIndex} {s : State} {e : Effect} (h : totalEffect i s = .ok e) :
    ∃ runs, s.slotAt i = { present := true, runs := runs } ∧
      e = { slot := none, bytes := none,
            results := some (BitVec.ofNat 64 (totalBits runs % 2 ^ 64), BitVec.ofNat 64 (totalBits runs / 2 ^ 64)) } := by
  unfold totalEffect at h
  cases hl : listOf s i with
  | error x => simp [hl, bind, Except.bind] at h
  | ok runs =>
    simp only [hl, bind, Except.bind, pure, Except.pure, Except.ok.injEq] at h
    exact ⟨runs, listOf_ok hl, h.symm⟩

theorem encodeEffect_ok {i : SlotIndex} {s : State} {e : Effect} (h : encodeEffect i s = .ok e) :
    ∃ runs input, s.slotAt i = { present := true, runs := runs } ∧ runs ≠ [] ∧ sourceBytes s = .ok input ∧
      (encodeBits runs (streamBits input)).length ≤ s.params.maxRuns ∧
      e = { slot := some { present := true, runs := encodeBits runs (streamBits input) }, bytes := none,
            results := none } := by
  unfold encodeEffect at h
  cases hl : liveListOf s i with
  | error x => simp [hl, bind, Except.bind] at h
  | ok runs =>
    cases hi : sourceBytes s with
    | error x => simp [hl, hi, bind, Except.bind] at h
    | ok input =>
      cases hc : checkCapacity s (encodeBits runs (streamBits input)).length with
      | error x => simp [hl, hi, hc, bind, Except.bind] at h
      | ok u =>
        simp [hl, hi, hc, bind, Except.bind, pure, Except.pure] at h
        exact ⟨runs, input, (liveListOf_ok hl).1, (liveListOf_ok hl).2, rfl, checkCapacity_ok hc, h.symm⟩

theorem decodeEffect_ok {i : SlotIndex} {s : State} {e : Effect} (h : decodeEffect i s = .ok e) :
    ∃ runs, s.slotAt i = { present := true, runs := runs } ∧ runs ≠ [] ∧ s.DstOk ∧
      ceilDiv (totalBits runs) 8 ≤ s.dstCap ∧
      e = { slot := some { present := true, runs := [] },
            bytes := some (pack (runBits runs) (ceilDiv (totalBits runs) 8)),
            results := some (BitVec.ofNat 64 (ceilDiv (totalBits runs) 8), BitVec.ofNat 64 (totalBits runs)) } := by
  unfold decodeEffect at h
  cases hl : liveListOf s i with
  | error x => simp [hl, bind, Except.bind] at h
  | ok runs =>
    rcases checkDestination_cases s (ceilDiv (totalBits runs) 8) with ⟨hc, hd, hn⟩ | ⟨hc, _⟩ | ⟨hc, _⟩
    · simp only [hl, hc, bind, Except.bind, pure, Except.pure, Except.ok.injEq] at h
      exact ⟨runs, (liveListOf_ok hl).1, (liveListOf_ok hl).2, hd, hn, h.symm⟩
    · simp [hl, hc, bind, Except.bind] at h
    · simp [hl, hc, bind, Except.bind] at h

theorem serializeEffect_ok {i : SlotIndex} {s : State} {e : Effect} (h : serializeEffect i s = .ok e) :
    ∃ runs, s.slotAt i = { present := true, runs := runs } ∧ runs ≠ [] ∧ s.DstOk ∧
      (wireBytes runs).length ≤ s.dstCap ∧
      e = { slot := none, bytes := some (wireBytes runs),
            results := some (BitVec.ofNat 64 (wireBytes runs).length, BitVec.ofNat 64 (headers runs).length) } := by
  unfold serializeEffect at h
  cases hl : liveListOf s i with
  | error x => simp [hl, bind, Except.bind] at h
  | ok runs =>
    rcases checkDestination_cases s (wireBytes runs).length with ⟨hc, hd, hn⟩ | ⟨hc, _⟩ | ⟨hc, _⟩
    · simp only [hl, hc, bind, Except.bind, pure, Except.pure, Except.ok.injEq] at h
      exact ⟨runs, (liveListOf_ok hl).1, (liveListOf_ok hl).2, hd, hn, h.symm⟩
    · simp [hl, hc, bind, Except.bind] at h
    · simp [hl, hc, bind, Except.bind] at h

theorem deserializeEffect_ok {s : State} {e : Effect} (h : deserializeEffect s = .ok e) :
    ∃ input r, sourceBytes s = .ok input ∧ parse input = some r ∧ r.1.length ≤ s.params.maxRuns ∧
      e = { slot := some { present := true, runs := r.1 }, bytes := none,
            results := some (BitVec.ofNat 64 r.1.length, BitVec.ofNat 64 r.2) } := by
  unfold deserializeEffect at h
  cases hi : sourceBytes s with
  | error x => simp [hi, bind, Except.bind] at h
  | ok input =>
    cases hp : parse input with
    | none => simp [hi, parsed, hp, bind, Except.bind] at h
    | some r =>
      cases hc : checkCapacity s r.1.length with
      | error x => simp [hi, parsed, hp, hc, bind, Except.bind] at h
      | ok u =>
        simp [hi, parsed, hp, hc, bind, Except.bind, pure, Except.pure] at h
        exact ⟨input, r, rfl, hp, checkCapacity_ok hc, h.symm⟩

/-- What a command computes: the body each meaning runs. -/
def effectOf (i : Instr) (s : State) : Except Halt Effect :=
  match i with
  | .create _ => .ok { slot := some { present := true, runs := [0] }, bytes := none, results := none }
  | .destroy _ => .ok { slot := some Slot.absent, bytes := none, results := none }
  | .append slot => appendEffect slot s
  | .popfront slot => popfrontEffect slot s
  | .size slot => sizeEffect slot s
  | .total slot => totalEffect slot s
  | .encode slot => encodeEffect slot s
  | .decode slot => decodeEffect slot s
  | .serialize slot => serializeEffect slot s
  | .deserialize _ => deserializeEffect s

/-- Every meaning runs its command in the shared frame. -/
theorem exec_eq_runCommand (i : Instr) (s : State) : exec i s = runCommand i.slot (effectOf i) s := by
  cases i <;> rfl

/-- Everything a command can do: commit its effect, raise one error, or fault the model. -/
theorem exec_cases (i : Instr) (s : State) :
    (∃ e, effectOf i s = .ok e ∧ exec i s = .next (commit i.slot e s)) ∨
    (∃ e, effectOf i s = .error (.raise e) ∧ exec i s = .next (s.setStatus e.statusWord)) ∨
    (∃ f, effectOf i s = .error (.fault f) ∧ exec i s = .fault f) := by
  rw [exec_eq_runCommand]
  exact runCommand_cases i.slot (effectOf i) s

theorem exec_not_refused (i : Instr) (s : State) (r : Refusal) : exec i s ≠ .refused r := by
  rw [exec_eq_runCommand]
  exact runCommand_not_refused _ _ _ _

end Sys2Proof.Machine
end

