-- ==== Sys2Proof/Laws/Decode.lean ====
section
/-! SUPPORT. The laws of the opcode map and of the decoder's two stages. -/

namespace Sys2Proof

/-- The opcode map reads back the opcode of a command. -/
@[simp] theorem commandOfOpcode_opcode (i : Instr) : commandOfOpcode i.opcode i.slot = some i := by cases i <;> rfl

/-- A command that the opcode map gives has that opcode and that slot. -/
theorem opcode_of_commandOfOpcode {op : BitVec 8} {slot : SlotIndex} {i : Instr} (h : commandOfOpcode op slot = some i) :
    i.opcode = op ∧ i.slot = slot := by
  unfold commandOfOpcode at h
  repeat' split at h
  all_goals first | (cases h; subst_vars; exact ⟨rfl, rfl⟩) | cases h

/-- Everything the first stage of the decoder can give. -/
theorem decodeFields_cases (w : Word) :
    (∃ i, decodeFields w = .ok i ∧ reservedField w = 0 ∧ i.opcode = opcodeField w ∧ i.slot = slotField w) ∨
    (decodeFields w = .error .reservedBits ∧ reservedField w ≠ 0) ∨
    (decodeFields w = .error .unassignedOpcode ∧ reservedField w = 0 ∧
      commandOfOpcode (opcodeField w) (slotField w) = none) := by
  unfold decodeFields
  by_cases hr : reservedField w = 0
  · cases hc : commandOfOpcode (opcodeField w) (slotField w) with
    | none => exact .inr (.inr ⟨by simp [hr], hr, rfl⟩)
    | some i =>
      obtain ⟨ho, hs⟩ := opcode_of_commandOfOpcode hc
      exact .inl ⟨i, by simp [hr], hr, ho, hs⟩
  · exact .inr (.inl ⟨if_pos hr, hr⟩)

/-- The decoder accepts a word when its fields do and the slot exists. -/
theorem decode_ok_iff (p : Params) (w : Word) (i : Instr) :
    decode p w = .ok i ↔ decodeFields w = .ok i ∧ i.WellFormed p := by
  unfold decode
  cases decodeFields w with
  | error e => simp
  | ok j =>
    by_cases h : j.slot.toNat < p.numSlots
    · simp only [h, if_true, Except.ok.injEq]
      constructor
      · rintro rfl
        exact ⟨rfl, h⟩
      · exact fun hj => hj.1
    · simp only [h, if_false, Except.ok.injEq, reduceCtorEq, false_iff, not_and]
      rintro rfl
      exact h

end Sys2Proof
end

