-- ==== Sys2Proof/Laws/PerInstr.lean ====
section
/-! SUPPORT. Statements about every command as syntax, one lemma per constructor (LAWS.json). -/

/-- The fields of the command word of `i` (30_encoding.md R70): OPCODE is the command's, SLOT is its slot, RSVD is 0. -/
def Sys2Proof.Laws.WordFields.Statement (i : Sys2Proof.Instr) : Prop :=
  Sys2Proof.opcodeField (Sys2Proof.encode i) = i.opcode ∧ Sys2Proof.slotField (Sys2Proof.encode i) = i.slot ∧
    Sys2Proof.reservedField (Sys2Proof.encode i) = 0

theorem Sys2Proof.Laws.WordFields.of_fields (slot : BitVec 4) (op : BitVec 8) :
    Sys2Proof.opcodeField (slot.setWidth 64 <<< 8 ||| op.setWidth 64) = op ∧
      Sys2Proof.slotField (slot.setWidth 64 <<< 8 ||| op.setWidth 64) = slot ∧
      Sys2Proof.reservedField (slot.setWidth 64 <<< 8 ||| op.setWidth 64) = 0 := by
  refine ⟨?_, ?_, ?_⟩
  · ext k hk
    simp [Sys2Proof.opcodeField, hk, show k < 64 by omega, BitVec.getLsbD_eq_getElem]
  · ext k hk
    simp [Sys2Proof.slotField, show 8 + k < 64 by omega, BitVec.getLsbD_eq_getElem hk]
  · ext k hk
    simp [Sys2Proof.reservedField, BitVec.getLsbD_of_ge op (12 + k) (by omega),
      BitVec.getLsbD_of_ge slot (12 + k - 8) (by omega)]

theorem Sys2Proof.Laws.WordFields.create (slot : Sys2Proof.SlotIndex) :
    Sys2Proof.Laws.WordFields.Statement (.create slot) := Sys2Proof.Laws.WordFields.of_fields slot _
theorem Sys2Proof.Laws.WordFields.destroy (slot : Sys2Proof.SlotIndex) :
    Sys2Proof.Laws.WordFields.Statement (.destroy slot) := Sys2Proof.Laws.WordFields.of_fields slot _
theorem Sys2Proof.Laws.WordFields.append (slot : Sys2Proof.SlotIndex) :
    Sys2Proof.Laws.WordFields.Statement (.append slot) := Sys2Proof.Laws.WordFields.of_fields slot _
theorem Sys2Proof.Laws.WordFields.popfront (slot : Sys2Proof.SlotIndex) :
    Sys2Proof.Laws.WordFields.Statement (.popfront slot) := Sys2Proof.Laws.WordFields.of_fields slot _
theorem Sys2Proof.Laws.WordFields.size (slot : Sys2Proof.SlotIndex) :
    Sys2Proof.Laws.WordFields.Statement (.size slot) := Sys2Proof.Laws.WordFields.of_fields slot _
theorem Sys2Proof.Laws.WordFields.total (slot : Sys2Proof.SlotIndex) :
    Sys2Proof.Laws.WordFields.Statement (.total slot) := Sys2Proof.Laws.WordFields.of_fields slot _
theorem Sys2Proof.Laws.WordFields.encode (slot : Sys2Proof.SlotIndex) :
    Sys2Proof.Laws.WordFields.Statement (.encode slot) := Sys2Proof.Laws.WordFields.of_fields slot _
theorem Sys2Proof.Laws.WordFields.decode (slot : Sys2Proof.SlotIndex) :
    Sys2Proof.Laws.WordFields.Statement (.decode slot) := Sys2Proof.Laws.WordFields.of_fields slot _
theorem Sys2Proof.Laws.WordFields.serialize (slot : Sys2Proof.SlotIndex) :
    Sys2Proof.Laws.WordFields.Statement (.serialize slot) := Sys2Proof.Laws.WordFields.of_fields slot _
theorem Sys2Proof.Laws.WordFields.deserialize (slot : Sys2Proof.SlotIndex) :
    Sys2Proof.Laws.WordFields.Statement (.deserialize slot) := Sys2Proof.Laws.WordFields.of_fields slot _
end

