-- ==== Sys2Proof/Laws/Step.lean ====
section
/-! SUPPORT. What one step can do, by the input that comes next. -/

namespace Sys2Proof.Machine

theorem step_no_input {s : State} (h : s.inputs = []) : step s = .next s := by
  simp [step, runNextInput, h]

theorem step_input {s : State} {i : Input} {rest : List Input} (h : s.inputs = i :: rest) :
    step s = takeInput i (s.setInputs rest) := by
  simp [step, runNextInput, h]

theorem step_transaction {s : State} {t : Transaction} {rest : List Input} (h : s.inputs = .transaction t :: rest)
    (hb : s.busy = false) : step s = transact t (s.setInputs rest) := by
  have : (s.setInputs rest).busy = false := hb
  simp [step_input h, takeInput, takeTransaction, this]

/-- Everything that issuing a command word can do. -/
theorem execute_cases (w : Word) (s : State) :
    (∃ i, decode s.params w = .ok i ∧ execute w s = exec i s) ∨
    (∃ e, decode s.params w = .error e ∧ execute w s = .next (s.setStatus 1)) := by
  unfold execute
  cases decode s.params w with
  | ok i => exact .inl ⟨i, rfl, rfl⟩
  | error e => exact .inr ⟨e, rfl, rfl⟩

/-- A register write other than to CMD answers a next state that differs in the argument registers alone. -/
theorem regWrite_not_cmd (off : Nat) (v : Word) (s : State) (h : registerAt off ≠ some .cmd) :
    ∃ t, regWrite off v s = .next t ∧
      t = { s with argA := t.argA, argB := t.argB, argC := t.argC, argD := t.argD } := by
  unfold regWrite
  split
  · contradiction
  all_goals exact ⟨_, rfl, rfl⟩

end Sys2Proof.Machine
end

