-- ==== Sys2Proof/Tests/Slice0.lean ====
section
/-! SUPPORT. The model's own tests, with expected results from spec/95_test_vectors.md and the worked examples of the
rules, and the witnesses that the hypotheses of each statement can be met. -/

namespace Sys2Proof.Tests

open Sys2Proof Sys2Proof.Machine

/-- The state of an outcome that is a next state. -/
def next? : Host.Outcome State Fault Refusal → Option State
  | .next s => some s
  | .fault _ => none
  | .refused _ => none

/-- The fault of an outcome that is one. -/
def fault? : Host.Outcome State Fault Refusal → Option Fault
  | .next _ => none
  | .fault f => some f
  | .refused _ => none

/-- The spec's example instance, slot 0 present with these runs, slot 1 ABSENT, and these bytes in BUF. -/
def demo (runs : List Word) (buf : Memory) : State :=
  { State.reset with slots := [{ present := true, runs := runs }, Slot.absent], buf := buf }

/-- Issue one command word in a state; what the tests look at. -/
def after (w : Word) (s : State) : Option State := next? (execute w s)

/-! ## WellFormed: each check refuses an ill-formed term -/

theorem test_wellFormed_last_slot : (Instr.size 1).WellFormed Params.specExample := by decide
theorem test_illFormed_slot : ¬(Instr.size 2).WellFormed Params.specExample := by decide
theorem test_params_legal : Params.specExample.Legal := by decide
theorem test_params_no_slot : ¬({ Params.specExample with numSlots := 0 } : Params).Legal := by decide
theorem test_params_17_slots : ¬({ Params.specExample with numSlots := 17 } : Params).Legal := by decide
theorem test_params_no_run : ¬({ Params.specExample with maxRuns := 0 } : Params).Legal := by decide
theorem test_params_too_many_runs : ¬({ Params.specExample with maxRuns := 2 ^ 32 + 1 } : Params).Legal := by decide
theorem test_params_no_byte : ¬({ Params.specExample with bufBytes := 0 } : Params).Legal := by decide
theorem test_params_too_many_bytes : ¬({ Params.specExample with bufBytes := 2 ^ 32 + 1 } : Params).Legal := by decide
theorem test_memory_unsorted : ¬Memory.wf [(3, 0), (2, 0)] := by decide
theorem test_memory_repeated : ¬Memory.wf [(3, 0), (3, 1)] := by decide
theorem test_slot_absent_with_runs : ¬Slot.Ok { present := false, runs := [1] } Params.specExample := by decide

/-! ## Decode: each command's word, written out from 30_encoding.md R70, R72 bit by bit -/

theorem test_decode_create : decodeFields 0b000000000001 = .ok (.create 0) := by decide
theorem test_decode_destroy : decodeFields 0b000100000010 = .ok (.destroy 1) := by decide
theorem test_decode_append : decodeFields 0b111100000011 = .ok (.append 15) := by decide
theorem test_decode_popfront : decodeFields 0b001000000100 = .ok (.popfront 2) := by decide
theorem test_decode_size : decodeFields 0b001000000101 = .ok (.size 2) := by decide
theorem test_decode_total : decodeFields 0b010000000110 = .ok (.total 4) := by decide
theorem test_decode_encode : decodeFields 0b100000010000 = .ok (.encode 8) := by decide
theorem test_decode_decode : decodeFields 0b000100010001 = .ok (.decode 1) := by decide
theorem test_decode_serialize : decodeFields 0b000100100000 = .ok (.serialize 1) := by decide
theorem test_decode_deserialize : decodeFields 0b000100100001 = .ok (.deserialize 1) := by decide

/-- E1 - E5: unassigned opcodes and reserved bits. -/
theorem test_decode_rejects : [0x0, 0x07, 0x12, 0x22, 0xFF, 0x0F, 0x1005, 0x8000000000000001].map decodeFields =
    [.error .unassignedOpcode, .error .unassignedOpcode, .error .unassignedOpcode, .error .unassignedOpcode,
      .error .unassignedOpcode, .error .unassignedOpcode, .error .reservedBits, .error .reservedBits] := by decide

/-- E6: SIZE s2 where NUM_SLOTS = 2. -/
theorem test_decode_slot_out_of_range : decode Params.specExample 0x205 = .error .slotOutOfRange := by decide

theorem test_decodeTableWord : decodeTableWord 64 0x0000000000000021 = some (.deserialize 0) := by decide

/-- The word of each row, placed after reset, is run by the very next step. -/
theorem test_withFetchWord : ∀ w ∈ [0x01, 0x02, 0x03, 0x04, 0x05, 0x06, 0x10, 0x11, 0x20, 0x21],
    (next? (step (State.reset.withFetchWord 64 w))).map (fun t => (t.cmd.toNat, t.inputs)) = some (w, []) := by decide

/-! ## Commands -/

/-- L2. -/
theorem test_create : (after 0x001 (demo [4, 4] [])).map (·.slots) = some [{ present := true, runs := [0] }, Slot.absent] := by
  decide

/-- L3. -/
theorem test_destroy : (after 0x002 (demo [4, 4] [])).map (·.slots) = some [Slot.absent, Slot.absent] := by decide

/-- E8. -/
theorem test_destroy_absent : (after 0x102 (demo [0] [])).map (·.status) = some 0 := by decide

/-- L5. -/
theorem test_append : (after 0x003 (demo [0, 5] [])).map (fun t => (t.slotAt 0).runs) = some [0, 5, 0] := by decide

/-- E20, second APPEND, MAX_RUNS = 2. -/
theorem test_append_full : (after 0x003 { demo [0, 1] [] with params := { Params.specExample with maxRuns := 2 } }).map
    (fun t => (t.status, (t.slotAt 0).runs)) = some (5, [0, 1]) := by decide

/-- L10. -/
theorem test_popfront : (after 0x004 (demo [BitVec.allOnes 64, 3] [])).map (fun t => (t.res0, t.res1, (t.slotAt 0).runs)) =
    some (BitVec.allOnes 64, 0, [3]) := by decide

/-- E9. -/
theorem test_popfront_drained : (after 0x004 (demo [] [])).map (·.status) = some 3 := by decide

/-- L11. -/
theorem test_size : (after 0x005 (demo [0, 4, 4] [])).map (fun t => (t.res0, t.res1)) = some (3, 0) := by decide

/-- E7. -/
theorem test_size_absent : (after 0x105 (demo [0] [])).map (·.status) = some 2 := by decide

/-- L14: the 128-bit total. -/
theorem test_total : (after 0x006 (demo [BitVec.allOnes 64, BitVec.allOnes 64, BitVec.allOnes 64] [])).map
    (fun t => (t.res0, t.res1)) = some (0xFFFFFFFFFFFFFFFD, 2) := by decide

/-- L15. -/
theorem test_total_zero : (after 0x006 (demo [0] [])).map (fun t => (t.res0, t.res1)) = some (0, 0) := by decide

/-- B10: two bytes, the second resumes the tail. -/
theorem test_encode : (after 0x010 { demo [0] [(0, 0xF0), (1, 0x0F)] with argB := 2 }).map (fun t => (t.slotAt 0).runs) =
    some [0, 4, 8, 4] := by decide

/-- B21: the tail overflow split. -/
theorem test_encode_overflow : (after 0x010 { demo [0, BitVec.allOnes 64] [(0, 0xFF)] with argB := 1 }).map
    (fun t => (t.slotAt 0).runs) = some [0, BitVec.allOnes 64, 0, 8] := by decide

/-- K8: 12 one bits, the last byte padded. -/
theorem test_decode : (after 0x011 { demo [0, 12] [] with argD := 8 }).map (fun t => (t.buf, t.res0, t.res1)) =
    some ([(0, 0xFF), (1, 0xF0)], 2, 12) := by decide

/-- E16: BadAddress beats AllocationFailure. -/
theorem test_decode_bad_address : (after 0x011 { demo [9] [] with argC := 255, argD := 2 }).map (·.status) = some 4 := by
  decide

/-- S11 and X16: a header that straddles two bytes, and the padding nibble. -/
theorem test_serialize : (after 0x020 { demo [5, 0] [] with argC := 16, argD := 16 }).map (fun t => (t.buf, t.res0, t.res1)) =
    some ([(16, 0x7D), (17, 0x91), (18, 0x94), (19, 0x00)], 4, 28) := by decide

/-- E17. -/
theorem test_serialize_full : (after 0x020 { demo [4, 4] [] with argD := 3 }).map (fun t => (t.status, t.buf)) = some (5, []) := by
  decide

/-- Q5. -/
theorem test_deserialize : (after 0x121 { demo [0] [(0, 0x7D), (1, 0x91), (2, 0x94), (3, 0x00)] with argB := 4 }).map
    (fun t => ((t.slotAt 1).runs, t.res0, t.res1)) = some ([5, 0], 2, 28) := by decide

/-- Z9: an extended header with 4 bits left. -/
theorem test_deserialize_malformed : (after 0x121 { demo [0] [(0, 0x7F), (1, 0x94)] with argB := 2 }).map
    (fun t => (t.status, t.slotAt 1)) = some (6, Slot.absent) := by decide

/-- R165 on S11. -/
theorem test_packing_view : packedBytes [5, 0] = [0x7D, 0x91, 0x94, 0x00] := by decide

/-- Q11: sixteen non-canonical headers (R177). -/
theorem test_parse_noncanonical : parse (List.replicate 16 0x44) = some ([0], 128) := by decide

/-- Q4: the second nibble is padding. -/
theorem test_parse_padding : parse [0x7F, 0x90] = some ([1], 12) := by decide

/-- Z15: a padding nibble that is not the last one. -/
theorem test_parse_padding_inside : parse [0x7F, 0x90, 0x40] = none := by decide

/-! ## Transactions -/

/-- The host issues one transaction. -/
def host (t : Transaction) (s : State) : State := { s with inputs := [.transaction t] }

/-- R39: the register at 0x18 is ARG_C. -/
theorem test_regWrite_argC : (next? (step (host (.regWrite 0x18 7) State.reset))).map (fun t => (t.argC, t.inputs)) =
    some (7, []) := by decide

/-- R27: writing STATUS has no effect. -/
theorem test_regWrite_status : (next? (step (host (.regWrite 0x38 7) State.reset))).map (·.status) = some 0 := by decide

/-- R41: the register at 0x30 is RES1. -/
theorem test_regRead_res1 : (next? (step (host (.regRead 0x30) { State.reset with res1 := 9 }))).map (·.reply) =
    some (.word 9) := by decide

/-- R27: an offset that is no multiple of 8 is unmapped. -/
theorem test_regRead_unmapped : (next? (step (host (.regRead 0x31) { State.reset with res1 := 9 }))).map (·.reply) =
    some (.word 0) := by decide

/-- R42: the last byte of BUF. -/
theorem test_bufWrite_last : (next? (step (host (.bufWrite 255 5) State.reset))).map (·.buf) = some [(255, 5)] := by decide

/-- R42: one past the last byte. -/
theorem test_bufWrite_outside : (next? (step (host (.bufWrite 256 5) State.reset))).map (·.buf) = some [] := by decide

/-- U1. -/
theorem test_bufRead_unwritten : fault? (step (host (.bufRead 255) State.reset)) = some (.unwrittenByte 255) := by decide

/-- P1, fifth line: `SERIALIZE s0, 16, 16` as transactions (R91). -/
theorem test_pseudo_serialize : (HostLine.serializeTo 0 16 16).expand =
    [.regWrite 0x18 16, .regWrite 0x20 16, .regWrite 0x00 0x020] := by decide

/-! ## Witnesses: the hypotheses of the statements can be met, every clause at a boundary value -/

theorem witness_DecodeOfEncodeIsTheCommand : (Instr.create 1).WellFormed Params.specExample := by decide

theorem witness_LegalWordEncodesItsCommand : decode Params.specExample 0x121 = .ok (.deserialize 1) := by decide

theorem witness_CommandDecode_legal : (0x121 : Word).extractLsb' 12 52 = 0 ∧
    (0x121 : Word).extractLsb' 0 8 ∈ ([0x01, 0x02, 0x03, 0x04, 0x05, 0x06, 0x10, 0x11, 0x20, 0x21] : List (BitVec 8)) ∧
    ((0x121 : Word).extractLsb' 8 4).toNat < State.reset.params.numSlots := by decide

theorem witness_CommandDecode_illegal : ¬((0x221 : Word).extractLsb' 12 52 = 0 ∧
    (0x221 : Word).extractLsb' 0 8 ∈ ([0x01, 0x02, 0x03, 0x04, 0x05, 0x06, 0x10, 0x11, 0x20, 0x21] : List (BitVec 8)) ∧
    ((0x221 : Word).extractLsb' 8 4).toNat < State.reset.params.numSlots) := by decide

theorem witness_IllegalWordOnlyReportsCodeOne : (host (.regWrite 0 0x221) State.reset).busy = false ∧
    (host (.regWrite 0 0x221) State.reset).inputs = .transaction (.regWrite 0x00 0x221) :: [] := by decide

theorem witness_IllegalWordZero : (host (.regWrite 0 0) State.reset).busy = false ∧
    (host (.regWrite 0 0) State.reset).inputs = .transaction (.regWrite 0x00 0) :: [] := by decide

theorem witness_StepRunsTheDecodedCommand : (host (.regWrite 0 0x101) State.reset).busy = false ∧
    (host (.regWrite 0 0x101) State.reset).inputs = .transaction (.regWrite 0x00 0x101) :: [] ∧
    decode (host (.regWrite 0 0x101) State.reset).params 0x101 = .ok (.create 1) := by decide

theorem witness_PlacedTableWordRunsNext : State.reset.busy = false ∧ (Instr.create 1).WellFormed State.reset.params := by
  decide

/-- One witness for each clause of RegWrite: CMD, the four argument registers, a read-only register, an unmapped offset. -/
theorem witness_RegWriteEffects : ∀ off ∈ [0x00, 0x08, 0x10, 0x18, 0x20, 0x28, 0x38, 0x40, 0x09],
    (host (.regWrite off 1) State.reset).busy = false ∧
    (host (.regWrite off 1) State.reset).inputs = .transaction (.regWrite off 1) :: [] := by decide

theorem witness_RegReadGivesTheRegister : ∀ off ∈ [0x00, 0x08, 0x10, 0x18, 0x20, 0x28, 0x30, 0x38, 0x40, 0x01],
    (host (.regRead off) State.reset).busy = false ∧
    (host (.regRead off) State.reset).inputs = .transaction (.regRead off) :: [] := by decide

theorem witness_RegRead_status : ({ State.reset with status := 6 } : State).StatusOk := by decide

/-- BufWrite below and at BUF_BYTES. -/
theorem witness_BufTransactions_write : ∀ a ∈ [255, 256], (host (.bufWrite a 1) State.reset).busy = false ∧
    (host (.bufWrite a 1) State.reset).inputs = .transaction (.bufWrite a 1) :: [] := by decide

/-- BufRead of a written byte, of an unwritten one, and at BUF_BYTES. -/
theorem witness_BufTransactions_read :
    (host (.bufRead 255) (demo [] [(255, 1)])).busy = false ∧
    255 < (demo [] [(255, 1)]).params.bufBytes ∧ (demo [] [(255, 1)]).buf.read 255 = some 1 ∧
    (demo [] [(255, 1)]).buf.read 254 = none ∧ (demo [] [(255, 1)]).params.bufBytes ≤ 256 := by decide

theorem witness_StateAfterReset : 255 < Params.specExample.bufBytes ∧ (1 : Word) ≠ 0 ∧
    (255 : Word).toNat + (1 : Word).toNat ≤ Params.specExample.bufBytes ∧
    State.Live { State.resetOf Params.specExample with slots := [{ present := true, runs := [0] }], argA := 255, argB := 1 } 0 := by
  decide

/-- Reset comes also while BUSY = 1. -/
theorem witness_ResetInputResetsTheBlock :
    ({ demo [4] [(3, 1)] with inputs := [.reset], status := 0x8000000000000000 } : State).inputs = .reset :: [] := by decide

theorem witness_NoInputLeavesTheBlockWaiting : State.reset.inputs = [] := by decide

theorem witness_StepUsesUpOneInput : (next? (step (host (.regWrite 0 0x101) State.reset))).isSome = true := by decide

/-- The least and the greatest parameters. -/
theorem witness_InvariantHoldsAfterReset :
    ({ Params.specExample with numSlots := 1, maxRuns := 1, bufBytes := 1 } : Params).Legal ∧
    ({ Params.specExample with numSlots := 16, maxRuns := 2 ^ 32, bufBytes := 2 ^ 32 } : Params).Legal := by decide

theorem witness_StepKeepsTheInvariant : (host (.regWrite 0 0x001) (demo [4, 4] [(255, 1)])).Inv ∧
    (next? (step (host (.regWrite 0 0x001) (demo [4, 4] [(255, 1)])))).isSome = true := by decide

theorem witness_StatusHoldsAReportableCode : ({ demo [0] [] with status := 6 } : State).Inv ∧
    (host (.regWrite 0 0x105) (demo [0] [])).busy = false ∧
    (next? (step (host (.regWrite 0 0x105) (demo [0] [])))).map (·.status) = some 2 := by decide

theorem witness_OnlyUnwrittenBytesStopTheModel : (host (.regWrite 0 0x010) { demo [0] [(0, 1)] with argB := 2 }).Inv ∧
    fault? (step (host (.regWrite 0 0x010) { demo [0] [(0, 1)] with argB := 2 })) = some (.unwrittenByte 1) := by decide

theorem witness_BusyBlocksOtherTransactions : ∀ t ∈ [Transaction.regRead 0x38, .regRead 0x30, .regWrite 0 1],
    (host t { State.reset with status := 0x8000000000000000 }).busy = true ∧
    (host t { State.reset with status := 0x8000000000000000 }).inputs = .transaction t :: [] := by decide

theorem witness_BusBindingIsNeverRead :
    (next? (step (host (.regWrite 0 0x001) State.reset))).isSome = true ∧
    (fault? (step (host (.bufRead 0) State.reset))).isSome = true := by decide

/-- ENCODE of the last byte of BUF and then a BufRead of it, both reading a byte that holds a value. -/
def readingRun : State :=
  { demo [0] [(255, 0xF0)] with
    argA := 255, argB := 1
    inputs := [.transaction (.regWrite 0x00 0x010), .transaction (.bufRead 255)] }

theorem witness_SafeRunsComplete : readingRun.Inv ∧ ReadsWrittenFor 2 readingRun := by
  refine ⟨by decide, ⟨⟨?_, ?_⟩, fun s' h => ⟨⟨?_, ?_⟩, fun _ _ => trivial⟩⟩⟩
  · intro a rest h
    simp [readingRun] at h
  · intro _ _ _ _ _ _
    decide
  · intro a rest hi _
    cases h
    cases hi
    decide
  · intro w rest slot hi
    cases h
    cases hi

theorem witness_CommandsKeepHostRegisters : (next? (exec (.create 1) (demo [0] []))).isSome = true := by decide

/-- A command that never writes the result registers, and one that would but raises an error. -/
theorem witness_ResultRegisterFrame : (next? (exec (.create 1) (demo [0] []))).isSome = true ∧
    (next? (exec (.size 1) (demo [0] []))).map (·.status) = some 2 := by decide

theorem witness_ErrorChangesOnlyCmdAndStatus : (host (.regWrite 0 0x105) (demo [0] [])).busy = false ∧
    (next? (step (host (.regWrite 0 0x105) (demo [0] [])))).map (·.status) = some 2 := by decide

/-- A command that stores nothing, DECODE of two bytes at the end of BUF, SERIALIZE of one, and a DECODE that fails. -/
theorem witness_BufFrame : (next? (exec (.size 0) (demo [0] []))).isSome = true ∧
    (next? (exec (.decode 0) { demo [0, 12] [] with argC := 254, argD := 2 })).map (·.buf) = some [(254, 0xFF), (255, 0xF0)] ∧
    (next? (exec (.serialize 0) { demo [0] [] with argC := 255, argD := 1 })).map (·.buf) = some [(255, 0x40)] ∧
    (next? (exec (.decode 0) { demo [9] [] with argD := 1 })).map (·.status) = some 5 := by decide

theorem witness_SlotFrame : (next? (exec (.size 0) (demo [0] []))).isSome = true ∧
    (next? (exec (.serialize 0) { demo [0] [] with argC := 255, argD := 1 })).isSome = true ∧
    (next? (exec (.popfront 0) (demo [] []))).map (·.status) = some 3 := by decide

/-- Other contents in slot 1, for a command on slot 0 that ends in a next state and for one that faults. -/
theorem witness_CommandsReadAndWriteOnlyTheirSlot :
    ([{ present := true, runs := [0] }, { present := true, runs := [7] }] : List Slot).length = (demo [0] []).slots.length ∧
    ([{ present := true, runs := [0] }, { present := true, runs := [7] }] : List Slot)[0]? = (demo [0] []).slots[0]? ∧
    (next? (exec (.popfront 0) (demo [0] []))).isSome = true ∧
    (fault? (exec (.encode 0) { demo [0] [] with argB := 1 })).isSome = true := by decide

/-- An ENCODE that succeeds; a command that writes no BUF byte; a DECODE of two bytes, whose output window is
addresses 254 and 255 and no other; a DECODE that raises an error. -/
theorem witness_NoCommandReadsAndWritesBuf :
    (next? (exec (.encode 0) { demo [0] [(0, 0xF0)] with argB := 1 })).isSome = true ∧
    (∀ i ∈ [Instr.size 0, .decode 0], ∀ slot, i ≠ .encode slot ∧ i ≠ .deserialize slot) ∧
    outputLength (.size 0) (demo [0, 12] []) = 0 ∧ outputLength (.decode 0) (demo [0, 12] []) = 2 ∧
    (next? (exec (.decode 0) { demo [0, 12] [(254, 0x0F), (253, 1)] with argC := 254, argD := 2 })).map (·.status) = some 0 ∧
    (next? (exec (.decode 0) { demo [0, 12] [] with argC := 254, argD := 1 })).map (·.status) = some 5 := by decide

theorem witness_CreateMakesTheSeededList : (demo [4, 4] []).HasSlot 1 := by decide

theorem witness_DestroyMakesTheSlotAbsent : (demo [4, 4] []).slotAt 1 = { present := false, runs := [] } := by decide

theorem witness_AbsentSlotRaisesNoList : ((demo [0] []).slotAt 1).present = false ∧ (demo [0] []).HasSlot 1 ∧
    (next? (exec (.destroy 1) (demo [0] []))).isSome = true := by decide

/-- A slot with MAX_RUNS runs, one with MAX_RUNS - 1, one ABSENT. -/
theorem witness_AppendAddsOneRun :
    State.HasList { demo [0, 1] [] with params := { Params.specExample with maxRuns := 2 } } 0 [0, 1] ∧
    State.HasList { demo [0] [] with params := { Params.specExample with maxRuns := 2 } } 0 [0] ∧
    ((demo [0] []).slotAt 1).present = false := by decide

theorem witness_PopfrontReturnsTheFirstRun : ((demo [9] []).slotAt 1).present = false ∧ (demo [] []).HasList 0 [] ∧
    (demo [9] []).HasList 0 [9] := by decide

theorem witness_SizeReturnsTheRunCount : ((demo [9] []).slotAt 1).present = false ∧ (demo [] []).HasList 0 [] ∧
    (demo [] []).Inv ∧ (demo [] []).HasSlot 0 := by decide

theorem witness_TotalReturnsTheExactSum : ((demo [9] []).slotAt 1).present = false ∧
    (demo [BitVec.allOnes 64, 1] []).HasList 0 [BitVec.allOnes 64, 1] ∧ (demo [BitVec.allOnes 64, 1] []).Inv ∧
    (demo [BitVec.allOnes 64, 1] []).HasSlot 0 := by decide

theorem witness_SlotTotalIsBelow2Pow96 : (demo [BitVec.allOnes 64, 1] []).Inv := by decide

/-- Every command succeeding in some state, POPFRONT on a list of one run and of two. -/
theorem witness_SlotConditionTransitions :
    (∀ i ∈ [Instr.create 0, .destroy 0, .append 0, .popfront 0, .size 0, .total 0, .encode 0, .decode 0, .serialize 0,
        .deserialize 0],
      (demo [9] []).HasSlot i.slot ∧
      (next? (exec i { demo [9] [(0, 0x40)] with argB := 1, argC := 250, argD := 5 })).map (·.status) = some 0) ∧
    (next? (exec (.popfront 0) (demo [9, 1] []))).map (·.status) = some 0 := by decide

/-- ENCODE: ABSENT, DRAINED, a window one byte too long, an unwritten byte, and a readable window that exceeds MAX_RUNS = 2
and one that does not. -/
theorem witness_EncodeAppendsTheWindowBits :
    ((demo [0] []).slotAt 1).present = false ∧ (demo [] []).HasList 0 [] ∧ (demo [0] []).HasList 0 [0] ∧
    (demo [0] []).params.bufBytes < (255 : Word).toNat + (2 : Word).toNat ∧
    (255 : Word).toNat + (1 : Word).toNat ≤ (demo [0] []).params.bufBytes ∧ ¬(demo [0] []).Written 255 1 ∧
    State.Source { demo [0] [(255, 0xF0)] with argA := 255, argB := 1 } [0xF0] ∧
    2 < (encodeBits [0] (streamBits [0xF0])).length ∧
    (encodeBits [0] (streamBits [0x0F])).length ≤ 2 := by decide

theorem witness_EncodeIsResumable :
    State.Source { demo [0] [(0, 0xF0), (1, 0x0F)] with argA := 0, argB := 1 } [0xF0] ∧
    State.Source { demo [0] [(0, 0xF0), (1, 0x0F)] with argA := 1, argB := 1 } [0x0F] ∧
    State.Source { demo [0] [(0, 0xF0), (1, 0x0F)] with argA := 0, argB := 2 } ([0xF0] ++ [0x0F]) ∧
    (demo [0] [(0, 0xF0), (1, 0x0F)]).HasSlot 0 ∧
    ((next? (exec (.encode 0) { demo [0] [(0, 0xF0), (1, 0x0F)] with argA := 0, argB := 1 })).bind
      (fun t => next? (exec (.encode 0) { t with argA := 1, argB := 1 }))).map (·.status) = some 0 ∧
    (next? (exec (.encode 0) { demo [0] [(0, 0xF0), (1, 0x0F)] with argA := 0, argB := 2 })).map (·.status) = some 0 := by
  decide

theorem witness_EncodePreservesTheBitSequence :
    (demo [0] []).HasSlot 0 ∧ State.Source { demo [0] [(255, 0xF0)] with argA := 255, argB := 1 } [0xF0] ∧
    (next? (exec (.encode 0) { demo [0] [(255, 0xF0)] with argA := 255, argB := 1 })).map (·.status) = some 0 ∧
    (demo [0] []).HasList 0 [0] := by decide

theorem witness_PackPlacesEveryBit : ([true, false, true] : List Bool).length ≤ 8 * 1 := by decide

theorem witness_StreamBitOrder : 15 < 8 * ([0x0F, 0xF1] : List Byte).length := by decide

/-- DECODE: ABSENT, DRAINED, a window one byte too long, an output one byte too long, an output that just fits. -/
theorem witness_DecodeWritesTheBits :
    ((demo [9] []).slotAt 1).present = false ∧ (demo [] []).HasList 0 [] ∧ (demo [9] []).HasList 0 [9] ∧
    (demo [9] []).params.bufBytes < (255 : Word).toNat + (2 : Word).toNat ∧
    (255 : Word).toNat + (1 : Word).toNat ≤ (demo [9] []).params.bufBytes ∧ (1 : Word).toNat < (9 + 7) / 8 ∧
    (254 : Word).toNat + (2 : Word).toNat ≤ (demo [9] []).params.bufBytes ∧ (9 + 7) / 8 ≤ (2 : Word).toNat ∧
    (demo [9] []).Inv := by decide

theorem witness_EncodeDecodeRoundTrip :
    State.Inv { demo [0] [(255, 0xF0)] with argA := 255, argB := 1 } ∧ (demo [0] []).HasSlot 0 ∧
    (demo [0] []).HasList 0 [0] ∧ State.Source { demo [0] [(255, 0xF0)] with argA := 255, argB := 1 } [0xF0] ∧
    (next? (exec (.encode 0) { demo [0] [(255, 0xF0)] with argA := 255, argB := 1 })).map (·.status) = some 0 ∧
    (255 : Word).toNat + (1 : Word).toNat ≤ (demo [0] []).params.bufBytes ∧
    ([0xF0] : List Byte).length ≤ (1 : Word).toNat := by decide

theorem witness_PoppedListHasComplementedBits : (demo [3, 2] []).HasSlot 0 ∧ (demo [3, 2] []).HasList 0 [3, 2] ∧
    (next? (exec (.popfront 0) (demo [3, 2] []))).isSome = true := by decide

/-- Pairs of length 1, 3, 4, 63 and 64. -/
theorem witness_HeaderLayout : (({ bit := true, length := 3 } : Pair).length ≤ 3) ∧
    (4 ≤ ({ bit := true, length := 4 } : Pair).length) ∧ (({ bit := true, length := 63 } : Pair).length ≤ 63) ∧
    (({ bit := true, length := 64 } : Pair).length = 64) := by decide

theorem witness_TailPadding : (headers [1]).length % 8 = 4 ∧ (headers [0]).length % 8 ≠ 4 := by decide

/-- SERIALIZE: ABSENT, DRAINED, a window one byte too long, an output one byte too long, an output that just fits. -/
theorem witness_SerializeWritesTheWireForm :
    ((demo [1] []).slotAt 1).present = false ∧ (demo [] []).HasList 0 [] ∧ (demo [1] []).HasList 0 [1] ∧
    (demo [1] []).params.bufBytes < (255 : Word).toNat + (2 : Word).toNat ∧
    (255 : Word).toNat + (1 : Word).toNat ≤ (demo [1] []).params.bufBytes ∧ (1 : Word).toNat < (wireBytes [1]).length ∧
    (254 : Word).toNat + (2 : Word).toNat ≤ (demo [1] []).params.bufBytes ∧
    (wireBytes [1]).length ≤ (2 : Word).toNat := by decide

/-- DESERIALIZE: a window one byte too long, an unwritten byte, a malformed input, too many counts for MAX_RUNS = 1, and
counts that just fit. -/
theorem witness_DeserializeRebuildsTheList :
    (demo [1] []).params.bufBytes < (255 : Word).toNat + (2 : Word).toNat ∧
    (255 : Word).toNat + (1 : Word).toNat ≤ (demo [1] []).params.bufBytes ∧ ¬(demo [1] []).Written 255 1 ∧
    State.Source { demo [1] [(255, 0x7D)] with argA := 255, argB := 1 } [0x7D] ∧ parse [0x7D] = none ∧
    State.Source { demo [1] [(254, 0x40), (255, 0x40)] with argA := 254, argB := 2 } [0x40, 0x40] ∧
    parse [0x40, 0x40] = some ([0, 0], 16) ∧ parse [0x40] = some ([0], 8) := by decide

theorem witness_SerializeDeserializeRoundTrip :
    State.Inv { demo [1] [] with argC := 254, argD := 2 } ∧ (demo [1] []).HasSlot 0 ∧ (demo [1] []).HasSlot 1 ∧
    (demo [1] []).HasList 0 [1] ∧
    (next? (exec (.serialize 0) { demo [1] [] with argC := 254, argD := 2 })).map (·.status) = some 0 := by decide

/-- T3 (`[1]`, detected), T9 (`[0]`, one run, detected) and T10 (`[0, 0]`, the last group lost). -/
theorem witness_TruncationIsDetectedButForOneCase :
    State.Source { demo [0] [(0, 0x7F)] with argA := 0, argB := 1 } (wireBytes ([] ++ [1])).dropLast ∧
    State.Source { demo [0] [] with argA := 0, argB := 0 } (wireBytes ([] ++ [0])).dropLast ∧
    State.Source { demo [0] [(0, 0x40)] with argA := 0, argB := 1 } (wireBytes ([0] ++ [0])).dropLast ∧
    (headers [0]).length % 8 = 0 := by decide

theorem witness_ConcatenatedStreams :
    State.Source { demo [0] [(0, 0x40), (1, 0x40)] with argA := 0, argB := 2 } (wireBytes [0] ++ wireBytes [0]) ∧
    (headers [0]).length % 8 = 0 ∧
    State.Source { demo [0] [(0, 0x7F), (1, 0x90), (2, 0x40)] with argA := 0, argB := 3 } (wireBytes [1] ++ wireBytes [0]) ∧
    (headers [1]).length % 8 ≠ 0 := by decide

end Sys2Proof.Tests
end

section
/-! PROOFS. The bit stream of a byte sequence by index (00_scope.md R10). -/

namespace Sys2Proof.Machine

theorem streamBits_length (bs : List Byte) : (streamBits bs).length = 8 * bs.length := by
  induction bs with
  | nil => rfl
  | cons b bs ih =>
    rw [streamBits_cons, List.length_append, byteBits_length, ih, List.length_cons]
    omega

theorem byteBits_getElem? (b : Byte) (k : Nat) (h : k < 8) : (byteBits b)[k]? = some (b.getLsbD (7 - k)) :=
  bitsOfNat_getElem? 8 b.toNat k h

/-- Past the end of the stream both sides are none, so the index needs no bound. -/
theorem streamBits_getElem? (bs : List Byte) (j : Nat) :
    (streamBits bs)[j]? = (bs[j / 8]?).map (fun b => b.getLsbD (7 - j % 8)) := by
  induction bs generalizing j with
  | nil => rfl
  | cons b bs ih =>
    rw [streamBits_cons]
    obtain hj | hj := Nat.lt_or_ge j 8
    · rw [List.getElem?_append_left (by simpa using hj), byteBits_getElem? b j hj, Nat.div_eq_of_lt hj,
        Nat.mod_eq_of_lt hj]
      rfl
    · obtain ⟨k, rfl⟩ := Nat.exists_eq_add_of_le' hj
      rw [List.getElem?_append_right (by simp), byteBits_length, Nat.add_sub_cancel, ih k,
        Nat.add_div_right k (by decide), Nat.add_mod_right, List.getElem?_cons_succ]

/-- Settles O39, by induction on the byte sequence. -/
theorem streamBitOrder : Obligations.StreamBitOrder :=
  fun bs => ⟨streamBits_length bs, fun j _ => streamBits_getElem? bs j⟩

end Sys2Proof.Machine
end

section
/-! PROOFS. What every input leaves alone besides its effect: the inputs after it (10_state.md R38) and the parameters
of the block (00_scope.md R7). -/

namespace Sys2Proof.Machine

/-- Where the outcome is a next state, it has the inputs and the parameters of `s`. -/
def KeepsInputsAndParams (s : State) (o : Host.Outcome State Fault Refusal) : Prop :=
  ∀ t, o = .next t → t.inputs = s.inputs ∧ t.params = s.params

@[simp] theorem keepsInputsAndParams_next (s t : State) :
    KeepsInputsAndParams s (.next t) ↔ t.inputs = s.inputs ∧ t.params = s.params := by
  simp [KeepsInputsAndParams]

@[simp] theorem keepsInputsAndParams_fault (s : State) (f : Fault) : KeepsInputsAndParams s (.fault f) := by
  simp [KeepsInputsAndParams]

/-- Only the inputs and the parameters of the first state matter. -/
theorem KeepsInputsAndParams.congr {s s' : State} {o : Host.Outcome State Fault Refusal}
    (h : KeepsInputsAndParams s' o) (hi : s'.inputs = s.inputs) (hp : s'.params = s.params) :
    KeepsInputsAndParams s o := by
  simpa only [KeepsInputsAndParams, hi, hp] using h

theorem exec_keepsInputsAndParams (i : Instr) (s : State) : KeepsInputsAndParams s (exec i s) := by
  obtain ⟨e, -, h⟩ | ⟨e, -, h⟩ | ⟨f, -, h⟩ := exec_cases i s
  · simp [h]
  · simp [h]
  · simp [h]

theorem execute_keepsInputsAndParams (w : Word) (s : State) : KeepsInputsAndParams s (execute w s) := by
  obtain ⟨i, -, h⟩ | ⟨e, -, h⟩ := execute_cases w s
  · exact h ▸ exec_keepsInputsAndParams i s
  · simp [h]

theorem regWrite_cmd {off : Nat} (v : Word) (s : State) (h : registerAt off = some .cmd) :
    regWrite off v s = execute v (s.writeReg .cmd v) := by
  simp [regWrite, h]

theorem regWrite_keepsInputsAndParams (off : Nat) (v : Word) (s : State) :
    KeepsInputsAndParams s (regWrite off v s) := by
  by_cases hoff : registerAt off = some .cmd
  · rw [regWrite_cmd v s hoff]
    exact (execute_keepsInputsAndParams v _).congr (by simp) (by simp)
  · obtain ⟨t, h, ht⟩ := regWrite_not_cmd off v s hoff
    rw [h, keepsInputsAndParams_next, ht]
    exact ⟨rfl, rfl⟩

@[simp] theorem bufWrite_inputs (a : Nat) (b : Byte) (s : State) : (bufWrite a b s).inputs = s.inputs := by
  unfold bufWrite; split <;> simp

@[simp] theorem bufWrite_params (a : Nat) (b : Byte) (s : State) : (bufWrite a b s).params = s.params := by
  unfold bufWrite; split <;> simp

/-- Everything a BufRead can do: give the host a byte, or fault the model where the byte holds no value. -/
theorem bufRead_cases (a : Nat) (s : State) :
    (∃ b, bufRead a s = .next (s.setReply (.byte b))) ∨ bufRead a s = .fault (.unwrittenByte a) := by
  unfold bufRead
  split
  · cases s.buf.read a with
    | some b => exact .inl ⟨b, rfl⟩
    | none => exact .inr rfl
  · exact .inl ⟨0, rfl⟩

theorem transact_keepsInputsAndParams (t : Transaction) (s : State) : KeepsInputsAndParams s (transact t s) := by
  cases t with
  | regWrite off v => exact (regWrite_keepsInputsAndParams off v (s.setReply .nothing)).congr rfl rfl
  | regRead off => simp [transact]
  | bufWrite a b => simp [transact]
  | bufRead a =>
    obtain ⟨b, h⟩ | h := bufRead_cases a s
    · simp [transact, h]
    · simp [transact, h]

theorem takeTransaction_keepsInputsAndParams (t : Transaction) (s : State) :
    KeepsInputsAndParams s (takeTransaction t s) := by
  unfold takeTransaction
  split
  · exact keepsInputsAndParams_fault s .busyAccess
  · exact transact_keepsInputsAndParams t s

theorem takeInput_keepsInputsAndParams (i : Input) (s : State) : KeepsInputsAndParams s (takeInput i s) := by
  cases i with
  | transaction t => exact takeTransaction_keepsInputsAndParams t s
  | reset => exact (keepsInputsAndParams_next s _).mpr ⟨rfl, rfl⟩

/-- Settles O14: the step takes the first input away, and what the input does keeps the rest. -/
theorem stepUsesUpOneInput : Obligations.StepUsesUpOneInput := by
  intro s t h
  cases hs : s.inputs with
  | nil =>
    rw [step_no_input hs] at h
    cases h
    exact ⟨hs, rfl⟩
  | cons i rest =>
    rw [step_input hs] at h
    exact takeInput_keepsInputsAndParams i (s.setInputs rest) t h

end Sys2Proof.Machine
end

section
/-! PROOFS. Noninterference of BUS_BINDING (00_scope.md R7, 20_memory.md R52): every function of the step commutes with
replacing it. -/

namespace Sys2Proof.Machine

/-- The same state of a block with another BUS_BINDING. -/
def State.withBusBinding (b : BusBinding) (s : State) : State :=
  { s with params := { s.params with busBinding := b } }

/-- The same outcome of a block with another BUS_BINDING. -/
def outcomeWithBusBinding (b : BusBinding) :
    Host.Outcome State Fault Refusal → Host.Outcome State Fault Refusal
  | .next t => .next (t.withBusBinding b)
  | .fault f => .fault f
  | .refused r => .refused r

section
variable (b : BusBinding)

@[simp] theorem State.withBusBinding_bufBytes (s : State) :
    (s.withBusBinding b).params.bufBytes = s.params.bufBytes := rfl
@[simp] theorem State.withBusBinding_buf (s : State) : (s.withBusBinding b).buf = s.buf := rfl
@[simp] theorem State.withBusBinding_inputs (s : State) : (s.withBusBinding b).inputs = s.inputs := rfl
@[simp] theorem State.withBusBinding_busy (s : State) : (s.withBusBinding b).busy = s.busy := rfl

/-- The decoder reads NUM_SLOTS alone of the parameters (R74). -/
@[simp] theorem decode_withBusBinding (w : Word) (s : State) :
    decode (s.withBusBinding b).params w = decode s.params w := rfl

theorem commit_withBusBinding (i : SlotIndex) (e : Effect) (s : State) :
    commit i e (s.withBusBinding b) = (commit i e s).withBusBinding b := by
  obtain ⟨slot, bytes, results⟩ := e
  cases slot <;> cases bytes <;> cases results <;> rfl

theorem effectOf_withBusBinding (i : Instr) (s : State) : effectOf i (s.withBusBinding b) = effectOf i s := by
  cases i <;> rfl

theorem exec_withBusBinding (i : Instr) (s : State) :
    exec i (s.withBusBinding b) = outcomeWithBusBinding b (exec i s) := by
  simp only [exec_eq_runCommand, runCommand, effectOf_withBusBinding]
  cases effectOf i s with
  | ok e => exact congrArg Host.Outcome.next (commit_withBusBinding b i.slot e s)
  | error halt => cases halt <;> rfl

theorem execute_withBusBinding (w : Word) (s : State) :
    execute w (s.withBusBinding b) = outcomeWithBusBinding b (execute w s) := by
  unfold execute
  rw [decode_withBusBinding]
  cases decode s.params w with
  | error e => rfl
  | ok i => exact exec_withBusBinding b i s

theorem regWrite_withBusBinding (off : Nat) (v : Word) (s : State) :
    regWrite off v (s.withBusBinding b) = outcomeWithBusBinding b (regWrite off v s) := by
  unfold regWrite
  cases registerAt off with
  | none => rfl
  | some r =>
    cases r with
    | cmd => exact execute_withBusBinding b v (s.writeReg .cmd v)
    | argA | argB | argC | argD | res0 | res1 | status => rfl

theorem regReadValue_withBusBinding (off : Nat) (s : State) :
    regReadValue off (s.withBusBinding b) = regReadValue off s := by
  unfold regReadValue
  cases registerAt off with
  | none => rfl
  | some r => cases r <;> rfl

theorem bufWrite_withBusBinding (a : Nat) (v : Byte) (s : State) :
    bufWrite a v (s.withBusBinding b) = (bufWrite a v s).withBusBinding b := by
  by_cases h : a < s.params.bufBytes
  · simp only [bufWrite, State.withBusBinding_bufBytes, h, if_true]
    rfl
  · simp only [bufWrite, State.withBusBinding_bufBytes, h, if_false]

theorem bufRead_withBusBinding (a : Nat) (s : State) :
    bufRead a (s.withBusBinding b) = outcomeWithBusBinding b (bufRead a s) := by
  by_cases h : a < s.params.bufBytes
  · simp only [bufRead, State.withBusBinding_bufBytes, State.withBusBinding_buf, h, if_true]
    cases s.buf.read a <;> rfl
  · simp only [bufRead, State.withBusBinding_bufBytes, h, if_false]
    rfl

theorem transact_withBusBinding (t : Transaction) (s : State) :
    transact t (s.withBusBinding b) = outcomeWithBusBinding b (transact t s) := by
  cases t with
  | regWrite off v => exact regWrite_withBusBinding b off v (s.setReply .nothing)
  | regRead off =>
    simp only [transact, regReadValue_withBusBinding]
    rfl
  | bufWrite a v => exact congrArg Host.Outcome.next (bufWrite_withBusBinding b a v (s.setReply .nothing))
  | bufRead a => exact bufRead_withBusBinding b a s

theorem takeTransaction_withBusBinding (t : Transaction) (s : State) :
    takeTransaction t (s.withBusBinding b) = outcomeWithBusBinding b (takeTransaction t s) := by
  by_cases h : s.busy && !t.readsStatus
  · simp only [takeTransaction, State.withBusBinding_busy, h, if_true]
    rfl
  · simp only [takeTransaction, State.withBusBinding_busy, h, Bool.false_eq_true, if_false]
    exact transact_withBusBinding b t s

theorem takeInput_withBusBinding (i : Input) (s : State) :
    takeInput i (s.withBusBinding b) = outcomeWithBusBinding b (takeInput i s) := by
  cases i with
  | transaction t => exact takeTransaction_withBusBinding b t s
  | reset => rfl

theorem step_withBusBinding (s : State) : step (s.withBusBinding b) = outcomeWithBusBinding b (step s) := by
  have hinputs := s.withBusBinding_inputs b
  cases hs : s.inputs with
  | nil =>
    rw [step_no_input hs, step_no_input (hinputs.trans hs)]
    rfl
  | cons i rest =>
    rw [step_input hs, step_input (hinputs.trans hs)]
    exact takeInput_withBusBinding b i (s.setInputs rest)

end

/-- Settles O20: a step commutes with replacing BUS_BINDING. -/
theorem busBindingIsNeverRead : Obligations.BusBindingIsNeverRead := fun s b =>
  ⟨fun _ h => (step_withBusBinding b s).trans (congrArg (outcomeWithBusBinding b) h),
   fun _ h => (step_withBusBinding b s).trans (congrArg (outcomeWithBusBinding b) h)⟩

end Sys2Proof.Machine
end

section
/-! PROOFS. What a command that answers leaves behind (00_scope.md R12, 60_exceptions.md R210), and the frames that
follow: the host's registers (10_state.md R22, R23), RES0 and RES1 (R24), BUF (R34). -/

namespace Sys2Proof.Machine

/-- A command that answers has committed its effect or raised one error. -/
theorem exec_next_cases {i : Instr} {s t : State} (h : exec i s = .next t) :
    (∃ e, effectOf i s = .ok e ∧ t = commit i.slot e s) ∨
    (∃ e, effectOf i s = .error (.raise e) ∧ t = s.setStatus e.statusWord) := by
  obtain ⟨e, he, hx⟩ | ⟨e, he, hx⟩ | ⟨f, -, hx⟩ := exec_cases i s
  · rw [hx] at h
    cases h
    exact .inl ⟨e, he, rfl⟩
  · rw [hx] at h
    cases h
    exact .inr ⟨e, he, rfl⟩
  · rw [hx] at h
    cases h

/-- No error has the code of success (R200). -/
theorem ErrorCode.statusWord_ne_zero (e : ErrorCode) : e.statusWord ≠ 0 := by cases e <;> decide

/-- STATUS 0 means that the command has committed its effect (R40). -/
theorem exec_next_success {i : Instr} {s t : State} (h : exec i s = .next t) (ht : t.status = 0) :
    ∃ e, effectOf i s = .ok e ∧ t = commit i.slot e s := by
  obtain hok | ⟨e, -, rfl⟩ := exec_next_cases h
  · exact hok
  · exact absurd ht e.statusWord_ne_zero

/-- Another STATUS means that the command has raised an error (R210). -/
theorem exec_next_failure {i : Instr} {s t : State} (h : exec i s = .next t) (ht : t.status ≠ 0) :
    ∃ e, effectOf i s = .error (.raise e) ∧ t = s.setStatus e.statusWord := by
  obtain ⟨e, -, rfl⟩ | hraise := exec_next_cases h
  · exact absurd (commit_status _ _ _) ht
  · exact hraise

/-- Settles O22: neither a commit nor an error writes these fields. -/
theorem commandsKeepHostRegisters : Obligations.CommandsKeepHostRegisters := by
  intro i s t h
  obtain ⟨e, -, rfl⟩ | ⟨e, -, rfl⟩ := exec_next_cases h
  · simp
  · simp

/-- The commands of R24 that give no result words. -/
theorem effectOf_results_none {i : Instr} {s : State} {e : Effect} (h : effectOf i s = .ok e)
    (hi : ∃ slot, i = .create slot ∨ i = .destroy slot ∨ i = .append slot ∨ i = .encode slot) : e.results = none := by
  obtain ⟨slot, rfl | rfl | rfl | rfl⟩ := hi
  · cases h
    rfl
  · cases h
    rfl
  · obtain ⟨_, -, -, rfl⟩ := appendEffect_ok h
    rfl
  · obtain ⟨_, _, -, -, -, -, rfl⟩ := encodeEffect_ok h
    rfl

/-- Settles O23: these commands commit no result words, and an error writes STATUS alone. -/
theorem resultRegisterFrame : Obligations.ResultRegisterFrame := by
  intro i s t h hi
  obtain ⟨e, he, rfl⟩ | ⟨e, -, rfl⟩ := exec_next_cases h
  · have hnone := effectOf_results_none he (hi.resolve_right fun hne => hne (commit_status _ _ _))
    simp [hnone]
  · simp

@[simp] theorem pack_length (q : List Bool) (n : Nat) : (pack q n).length = n := by
  induction n generalizing q with
  | zero => rfl
  | succ n ih => rw [pack_succ, List.length_cons, ih]

/-- The output of every command, if it has one, has the length `outputLength` says and fits in BUF (R34, R55). -/
theorem effectOf_bytes {i : Instr} {s : State} {e : Effect} (h : effectOf i s = .ok e) :
    e.bytes = none ∨
    (∃ bs, e.bytes = some bs ∧ bs.length = outputLength i s ∧ s.dst + bs.length ≤ s.params.bufBytes) := by
  cases i with
  | create slot | destroy slot =>
    cases h
    exact .inl rfl
  | append slot =>
    obtain ⟨_, -, -, rfl⟩ := appendEffect_ok h
    exact .inl rfl
  | popfront slot =>
    obtain ⟨_, _, -, rfl⟩ := popfrontEffect_ok h
    exact .inl rfl
  | size slot =>
    obtain ⟨_, -, rfl⟩ := sizeEffect_ok h
    exact .inl rfl
  | total slot =>
    obtain ⟨_, -, rfl⟩ := totalEffect_ok h
    exact .inl rfl
  | encode slot =>
    obtain ⟨_, _, -, -, -, -, rfl⟩ := encodeEffect_ok h
    exact .inl rfl
  | deserialize slot =>
    obtain ⟨_, _, -, -, -, rfl⟩ := deserializeEffect_ok h
    exact .inl rfl
  | decode slot =>
    obtain ⟨runs, hs, -, hdst, hcap, rfl⟩ := decodeEffect_ok h
    exact .inr ⟨_, rfl, by simp [outputLength, hs], by rw [pack_length]; omega⟩
  | serialize slot =>
    obtain ⟨runs, hs, -, hdst, hcap, rfl⟩ := serializeEffect_ok h
    exact .inr ⟨_, rfl, by simp [outputLength, hs], by omega⟩

/-- A command leaves every byte outside its output, which starts at ARG_C. -/
theorem exec_buf_read_outside {i : Instr} {s t : State} (h : exec i s = .next t) {a : Nat}
    (ha : a < s.argC.toNat ∨ s.argC.toNat + outputLength i s ≤ a) : t.buf.read a = s.buf.read a := by
  obtain ⟨e, he, rfl⟩ | ⟨e, -, rfl⟩ := exec_next_cases h
  · obtain hnone | ⟨bs, hbs, hlen, -⟩ := effectOf_bytes he
    · simp [hnone]
    · rw [commit_buf_eq, hbs]
      exact Memory.read_writeBytes_outside bs _ _ _ (by rwa [hlen])
  · rfl

/-- The output of a command other than DECODE and SERIALIZE is empty. -/
theorem outputLength_eq_zero {i : Instr} (s : State) (hi : ∀ slot, i ≠ .decode slot ∧ i ≠ .serialize slot) :
    outputLength i s = 0 := by
  cases i with
  | decode slot => exact absurd rfl (hi slot).1
  | serialize slot => exact absurd rfl (hi slot).2
  | create slot | destroy slot | append slot | popfront slot | size slot | total slot | encode slot
  | deserialize slot => rfl

/-- Settles O25: every byte outside the output stays; it is empty for the other commands, and an error writes none. -/
theorem bufFrame : Obligations.BufFrame := by
  intro i s t h
  refine ⟨fun hi a => exec_buf_read_outside h ?_, ?_, ?_, fun ht a => ?_⟩
  · rw [outputLength_eq_zero s hi]
    omega
  · rintro slot rfl a ha
    exact exec_buf_read_outside h ha
  · rintro slot rfl a ha
    exact exec_buf_read_outside h ha
  · obtain ⟨e, -, rfl⟩ := exec_next_failure h ht
    rfl

end Sys2Proof.Machine
end

section
/-! PROOFS. The errors a command raises are those of the codes 1 to 6 (60_exceptions.md R200, R203). -/

namespace Sys2Proof.Machine

/-- The computation never raises code 7, the one error of R200 above 6. -/
def RaisesReportable {α : Type} (x : Except Halt α) : Prop :=
  ∀ e, x = .error (.raise e) → e ≠ .unrepresentableValue

theorem ErrorCode.statusWord_le_six {e : ErrorCode} (h : e ≠ .unrepresentableValue) : e.statusWord ≤ 6 := by
  cases e with
  | unrepresentableValue => exact absurd rfl h
  | illegalCommand | noList | listEmpty | badAddress | allocationFailure | malformedInput => decide

theorem raisesReportable_ok {α : Type} (a : α) : RaisesReportable (.ok a) := nofun

theorem raisesReportable_bind {α β : Type} {x : Except Halt α} {f : α → Except Halt β} (hx : RaisesReportable x)
    (hf : ∀ a, RaisesReportable (f a)) : RaisesReportable (x >>= f) := by
  cases x with
  | ok a => exact hf a
  | error halt =>
    intro e h
    obtain rfl : halt = .raise e := Except.error.inj h
    exact hx e rfl

theorem raisesReportable_check {c : Prop} [Decidable c] {e : ErrorCode} (he : e ≠ .unrepresentableValue) :
    RaisesReportable (check c e) := by
  by_cases hc : c
  · rw [check_true e hc]
    exact raisesReportable_ok ()
  · rw [check_false e hc]
    rintro _ ⟨⟩
    exact he

theorem raisesReportable_listOf (s : State) (i : SlotIndex) : RaisesReportable (listOf s i) := by
  cases hp : (s.slotAt i).present with
  | true =>
    rw [listOf_present hp]
    exact raisesReportable_ok _
  | false =>
    rw [listOf_absent hp]
    rintro _ ⟨⟩
    decide

theorem raisesReportable_liveListOf (s : State) (i : SlotIndex) : RaisesReportable (liveListOf s i) :=
  raisesReportable_bind (raisesReportable_listOf s i) fun runs =>
    raisesReportable_bind (raisesReportable_check (by decide)) fun _ => raisesReportable_ok runs

theorem raisesReportable_sourceBytes (s : State) : RaisesReportable (sourceBytes s) := by
  obtain ⟨bs, h, -⟩ | ⟨h, -⟩ | ⟨a, h, -⟩ := sourceBytes_cases s
  · rw [h]
    exact raisesReportable_ok bs
  · rw [h]
    rintro _ ⟨⟩
    decide
  · rw [h]
    nofun

theorem raisesReportable_checkDestination (s : State) (n : Nat) : RaisesReportable (checkDestination s n) :=
  raisesReportable_bind (raisesReportable_check (by decide)) fun _ => raisesReportable_check (by decide)

theorem raisesReportable_checkCapacity (s : State) (n : Nat) : RaisesReportable (checkCapacity s n) :=
  raisesReportable_check (by decide)

theorem raisesReportable_parsed (input : List Byte) : RaisesReportable (parsed input) := by
  unfold parsed
  cases parse input with
  | some r => exact raisesReportable_ok r
  | none =>
    rintro _ ⟨⟩
    decide

theorem raisesReportable_effectOf (i : Instr) (s : State) : RaisesReportable (effectOf i s) := by
  cases i with
  | create slot | destroy slot => exact raisesReportable_ok _
  | append slot =>
    exact raisesReportable_bind (raisesReportable_listOf s slot) fun _ =>
      raisesReportable_bind (raisesReportable_checkCapacity s _) fun _ => raisesReportable_ok _
  | popfront slot =>
    exact raisesReportable_bind (raisesReportable_liveListOf s slot) fun _ => raisesReportable_ok _
  | size slot | total slot =>
    exact raisesReportable_bind (raisesReportable_listOf s slot) fun _ => raisesReportable_ok _
  | encode slot =>
    exact raisesReportable_bind (raisesReportable_liveListOf s slot) fun _ =>
      raisesReportable_bind (raisesReportable_sourceBytes s) fun _ =>
        raisesReportable_bind (raisesReportable_checkCapacity s _) fun _ => raisesReportable_ok _
  | decode slot | serialize slot =>
    exact raisesReportable_bind (raisesReportable_liveListOf s slot) fun _ =>
      raisesReportable_bind (raisesReportable_checkDestination s _) fun _ => raisesReportable_ok _
  | deserialize slot =>
    exact raisesReportable_bind (raisesReportable_sourceBytes s) fun _ =>
      raisesReportable_bind (raisesReportable_parsed _) fun _ =>
        raisesReportable_bind (raisesReportable_checkCapacity s _) fun _ => raisesReportable_ok _

theorem exec_statusOk {i : Instr} {s t : State} (h : exec i s = .next t) : t.StatusOk := by
  obtain ⟨e, -, rfl⟩ | ⟨e, he, rfl⟩ := exec_next_cases h
  · simp [State.StatusOk]
  · exact ErrorCode.statusWord_le_six (raisesReportable_effectOf i s e he)

theorem execute_statusOk {w : Word} {s t : State} (h : execute w s = .next t) : t.StatusOk := by
  obtain ⟨i, -, hx⟩ | ⟨e, -, hx⟩ := execute_cases w s
  · exact exec_statusOk (hx ▸ h)
  · rw [hx] at h
    cases h
    simp [State.StatusOk]

end Sys2Proof.Machine
end

section
/-! PROOFS. The invariant (10_state.md R25, R31, R34) after reset and after every step. -/

namespace Sys2Proof.Machine

/-- The invariant speaks of the parameters, the slots, BUF and STATUS alone. -/
theorem State.Inv.congr {s t : State} (h : s.Inv) (hparams : t.params = s.params) (hslots : t.slots = s.slots)
    (hbuf : t.buf = s.buf) (hstatus : t.status = s.status) : t.Inv := by
  simpa only [State.Inv, State.SlotsOk, State.BufOk, State.StatusOk, hparams, hslots, hbuf, hstatus] using h

theorem State.Inv.setInputs {s : State} (h : s.Inv) (is : List Input) : (s.setInputs is).Inv := h

theorem State.Inv.setReply {s : State} (h : s.Inv) (r : Reply) : (s.setReply r).Inv := h

theorem State.Inv.writeCmd {s : State} (h : s.Inv) (v : Word) : (s.writeReg .cmd v).Inv := h

theorem Slot.absent_ok (p : Params) : Slot.absent.Ok p := ⟨Nat.zero_le _, fun _ => rfl⟩

/-- R31 holds at every slot index: beyond NUM_SLOTS a slot reads as ABSENT. -/
theorem State.SlotsOk.slotAt_ok {s : State} (h : s.SlotsOk) (i : SlotIndex) : (s.slotAt i).Ok s.params := by
  obtain hi | hi := Nat.lt_or_ge i.toNat s.slots.length
  · exact h.2 _ (s.slotAt_mem i hi)
  · rw [State.slotAt, List.getD_eq_default _ _ hi]
    exact Slot.absent_ok s.params

theorem State.Inv.setStatus {s : State} (h : s.Inv) {v : Word} (hv : v ≤ 6) : (s.setStatus v).Inv := by
  obtain ⟨hlegal, hslots, hbuf, -⟩ := h
  exact ⟨hlegal, hslots, hbuf, hv⟩

theorem State.Inv.setSlot {s : State} (h : s.Inv) (i : SlotIndex) {l : Slot} (hl : l.Ok s.params) :
    (s.setSlot i l).Inv := by
  obtain ⟨hlegal, ⟨hlen, hslots⟩, hbuf, hstatus⟩ := h
  refine ⟨hlegal, ⟨by simpa using hlen, fun l' hl' => ?_⟩, hbuf, hstatus⟩
  obtain hmem | rfl := List.mem_or_eq_of_mem_set hl'
  · exact hslots l' hmem
  · exact hl

theorem State.Inv.writeBytes {s : State} (h : s.Inv) {a : Nat} {bs : List Byte}
    (hfits : a + bs.length ≤ s.params.bufBytes) : (s.setBuf (s.buf.writeBytes a bs)).Inv := by
  obtain ⟨hlegal, hslots, ⟨hwf, hbound⟩, hstatus⟩ := h
  refine ⟨hlegal, hslots, ⟨Memory.writeBytes_wf bs _ _ hwf, fun c hc => ?_⟩, hstatus⟩
  obtain ⟨-, hlt⟩ | hmem := Memory.mem_writeBytes bs _ _ c hc
  · exact Nat.lt_of_lt_of_le hlt hfits
  · exact hbound c hmem

theorem State.Inv.putSlot {s : State} (h : s.Inv) (i : SlotIndex) {o : Option Slot}
    (ho : ∀ l, o = some l → l.Ok s.params) : (s.putSlot i o).Inv := by
  cases o with
  | none => exact h
  | some l => exact h.setSlot i (ho l rfl)

theorem State.Inv.putBytes {s : State} (h : s.Inv) {o : Option (List Byte)}
    (ho : ∀ bs, o = some bs → s.dst + bs.length ≤ s.params.bufBytes) : (s.putBytes o).Inv := by
  cases o with
  | none => exact h
  | some bs => exact h.writeBytes (ho bs rfl)

theorem State.Inv.commit {s : State} (h : s.Inv) (i : SlotIndex) {e : Effect}
    (hslot : ∀ l, e.slot = some l → l.Ok s.params)
    (hbytes : ∀ bs, e.bytes = some bs → s.dst + bs.length ≤ s.params.bufBytes) : (commit i e s).Inv := by
  have hput : ((s.putSlot i e.slot).putBytes e.bytes).Inv :=
    (h.putSlot i hslot).putBytes (by simpa [State.dst] using hbytes)
  have hres : (((s.putSlot i e.slot).putBytes e.bytes).putResults e.results).Inv :=
    hput.congr (by simp) (by simp) (by simp) (by simp)
  exact hres.setStatus (by decide)

/-- Every list a command stores has at most MAX_RUNS runs (R31, R201). -/
theorem effectOf_slot_ok {i : Instr} {s : State} {e : Effect} (hs : s.Inv) (h : effectOf i s = .ok e) (l : Slot)
    (hl : e.slot = some l) : l.Ok s.params := by
  obtain ⟨⟨-, ⟨hone, -⟩, -⟩, hslots, -, -⟩ := hs
  cases i with
  | create slot =>
    cases h
    cases hl
    exact ⟨hone, nofun⟩
  | destroy slot =>
    cases h
    cases hl
    exact Slot.absent_ok s.params
  | append slot =>
    obtain ⟨runs, -, hcap, rfl⟩ := appendEffect_ok h
    cases hl
    exact ⟨by simpa using hcap, nofun⟩
  | popfront slot =>
    obtain ⟨v, rest, hat, rfl⟩ := popfrontEffect_ok h
    cases hl
    have hlen := (hslots.slotAt_ok slot).1
    rw [hat] at hlen
    exact ⟨Nat.le_of_succ_le hlen, nofun⟩
  | size slot =>
    obtain ⟨_, -, rfl⟩ := sizeEffect_ok h
    cases hl
  | total slot =>
    obtain ⟨_, -, rfl⟩ := totalEffect_ok h
    cases hl
  | encode slot =>
    obtain ⟨_, _, -, -, -, hcap, rfl⟩ := encodeEffect_ok h
    cases hl
    exact ⟨hcap, nofun⟩
  | decode slot =>
    obtain ⟨_, -, -, -, -, rfl⟩ := decodeEffect_ok h
    cases hl
    exact ⟨Nat.zero_le _, nofun⟩
  | serialize slot =>
    obtain ⟨_, -, -, -, -, rfl⟩ := serializeEffect_ok h
    cases hl
  | deserialize slot =>
    obtain ⟨_, _, -, -, hcap, rfl⟩ := deserializeEffect_ok h
    cases hl
    exact ⟨hcap, nofun⟩

theorem effectOf_bytes_fit {i : Instr} {s : State} {e : Effect} (h : effectOf i s = .ok e) (bs : List Byte)
    (hbs : e.bytes = some bs) : s.dst + bs.length ≤ s.params.bufBytes := by
  obtain hnone | ⟨bs', hbs', -, hfits⟩ := effectOf_bytes h
  · simp [hnone] at hbs
  · obtain rfl : bs' = bs := Option.some.inj (hbs'.symm.trans hbs)
    exact hfits

theorem exec_keeps_inv {i : Instr} {s t : State} (hs : s.Inv) (h : exec i s = .next t) : t.Inv := by
  obtain ⟨e, he, rfl⟩ | ⟨e, -, rfl⟩ := exec_next_cases h
  · exact hs.commit i.slot (effectOf_slot_ok hs he) (effectOf_bytes_fit he)
  · exact hs.setStatus (exec_statusOk h)

theorem execute_keeps_inv {w : Word} {s t : State} (hs : s.Inv) (h : execute w s = .next t) : t.Inv := by
  obtain ⟨i, -, hx⟩ | ⟨e, -, hx⟩ := execute_cases w s
  · exact exec_keeps_inv hs (hx ▸ h)
  · rw [hx] at h
    cases h
    exact hs.setStatus (by decide)

theorem regWrite_keeps_inv {off : Nat} {v : Word} {s t : State} (hs : s.Inv) (h : regWrite off v s = .next t) :
    t.Inv := by
  by_cases hoff : registerAt off = some .cmd
  · rw [regWrite_cmd v s hoff] at h
    exact execute_keeps_inv (hs.writeCmd v) h
  · obtain ⟨t', ht', hframe⟩ := regWrite_not_cmd off v s hoff
    obtain rfl : t' = t := Host.Outcome.next.inj (ht'.symm.trans h)
    rw [hframe]
    exact hs.congr rfl rfl rfl rfl

theorem bufWrite_keeps_inv (a : Nat) (b : Byte) {s : State} (hs : s.Inv) : (bufWrite a b s).Inv := by
  unfold bufWrite
  split
  · next ha => exact hs.writeBytes (bs := [b]) ha
  · exact hs

theorem transact_keeps_inv {x : Transaction} {s t : State} (hs : s.Inv) (h : transact x s = .next t) : t.Inv := by
  cases x with
  | regWrite off v => exact regWrite_keeps_inv (hs.setReply .nothing) h
  | regRead off =>
    cases h
    exact hs.setReply _
  | bufWrite a b =>
    cases h
    exact bufWrite_keeps_inv a b (hs.setReply .nothing)
  | bufRead a =>
    obtain ⟨b, hb⟩ | hb := bufRead_cases a s
    · rw [transact, hb] at h
      cases h
      exact hs.setReply _
    · rw [transact, hb] at h
      cases h

theorem takeTransaction_keeps_inv {x : Transaction} {s t : State} (hs : s.Inv)
    (h : takeTransaction x s = .next t) : t.Inv := by
  unfold takeTransaction at h
  split at h
  · cases h
  · exact transact_keeps_inv hs h

theorem State.resetOf_inv {p : Params} (hp : p.Legal) : (State.resetOf p).Inv := by
  refine ⟨hp, ⟨List.length_replicate, fun l hl => ?_⟩, ⟨List.Pairwise.nil, nofun⟩, Nat.zero_le 6⟩
  rw [List.eq_of_mem_replicate hl]
  exact Slot.absent_ok p

theorem takeInput_keeps_inv {i : Input} {s t : State} (hs : s.Inv) (h : takeInput i s = .next t) : t.Inv := by
  cases i with
  | transaction x => exact takeTransaction_keeps_inv hs h
  | reset =>
    cases h
    exact (State.resetOf_inv hs.1).setInputs s.inputs

/-- Settles O16: what the next input does keeps the invariant, case by case of the input. -/
theorem stepKeepsTheInvariant : Obligations.StepKeepsTheInvariant := by
  intro s t hs h
  cases hin : s.inputs with
  | nil =>
    rw [step_no_input hin] at h
    cases h
    exact hs
  | cons i rest =>
    rw [step_input hin] at h
    exact takeInput_keeps_inv (hs.setInputs rest) h

/-- Settles O15: reset gives every legal instance the invariant, and the example parameters are legal. -/
theorem invariantHoldsAfterReset : Obligations.InvariantHoldsAfterReset :=
  ⟨fun _ => State.resetOf_inv, State.resetOf_inv (by decide)⟩

/-- R33: at most 2^32 runs, each below 2^64. -/
theorem totalBits_le (runs : List Word) : totalBits runs ≤ runs.length * (2 ^ 64 - 1) := by
  have hle : ∀ n ∈ runs.map BitVec.toNat, n ≤ 2 ^ 64 - 1 := by
    simp only [List.mem_map]
    rintro n ⟨w, -, rfl⟩
    exact Nat.le_pred_of_lt w.isLt
  simpa [totalBits] using List.sum_le_card_nsmul _ _ hle

/-- Settles O37: R31 bounds the number of runs and 64 bits bound each run. -/
theorem slotTotalIsBelow2Pow96 : Obligations.SlotTotalIsBelow2Pow96 := by
  intro s slot hs
  obtain ⟨⟨-, ⟨-, hmax⟩, -⟩, hslots, -, -⟩ := hs
  have hlen : (s.slotAt slot).runs.length ≤ 2 ^ 32 := (hslots.slotAt_ok slot).1.trans hmax
  have htotal := totalBits_le (s.slotAt slot).runs
  omega

/-- A STATUS that the block can hold, as a number; its fields follow (R25). -/
theorem State.StatusOk.toNat_le {s : State} (h : s.StatusOk) : s.status.toNat ≤ 6 := h

theorem State.StatusOk.not_busy {s : State} (h : s.StatusOk) : s.busy = false := by
  have hle := h.toNat_le
  exact Nat.testBit_lt_two_pow (by omega)

theorem State.StatusOk.reserved_zero {s : State} (h : s.StatusOk) : s.status.extractLsb' 4 59 = 0 := by
  have hle := h.toNat_le
  apply BitVec.eq_of_toNat_eq
  rw [BitVec.extractLsb'_toNat, Nat.shiftRight_eq_div_pow]
  simp only [BitVec.ofNat_eq_ofNat, BitVec.toNat_ofNat]
  omega

theorem State.StatusOk.ecode_toNat {s : State} (h : s.StatusOk) : s.ecode.toNat = s.status.toNat := by
  have hle := h.toNat_le
  rw [State.ecode, BitVec.extractLsb'_toNat, Nat.shiftRight_zero]
  omega

/-- Settles O17: a value up to 6 has its fields, and every CMD write leaves such a value. -/
theorem statusHoldsAReportableCode : Obligations.StatusHoldsAReportableCode := by
  refine ⟨fun s hs => ?_, fun s t rest w hb hin h => ?_⟩
  · obtain ⟨-, -, -, hstatus⟩ := hs
    refine ⟨hstatus.not_busy, hstatus.reserved_zero, ?_⟩
    rw [BitVec.le_def, hstatus.ecode_toNat]
    exact hstatus.toNat_le
  · rw [step_transaction hin hb, transact, regWrite_cmd w _ rfl] at h
    exact execute_statusOk h

end Sys2Proof.Machine
end

section
/-! PROOFS. Noninterference of slots (10_state.md R30): a command reads its own slot alone, and writes it alone. -/

namespace Sys2Proof.Machine

/-- The same state with other slots. -/
def State.withSlots (s : State) (l : List Slot) : State := { s with slots := l }

@[simp] theorem State.withSlots_slots (s : State) (l : List Slot) : (s.withSlots l).slots = l := rfl

theorem State.slotAt_withSlots {s : State} {other : List Slot} {i : SlotIndex}
    (h : other[i.toNat]? = s.slots[i.toNat]?) : (s.withSlots other).slotAt i = s.slotAt i := by
  simp only [State.slotAt, List.getD_eq_getElem?_getD, State.withSlots_slots, h]

theorem listOf_withSlots {s : State} {other : List Slot} {i : SlotIndex}
    (h : (s.withSlots other).slotAt i = s.slotAt i) : listOf (s.withSlots other) i = listOf s i := by
  simp only [listOf, h]

/-- A computation depends on what it takes first through the value of it alone. -/
theorem bind_congr_left {α β : Type} {x y : Except Halt α} {f : α → Except Halt β} (h : x = y) :
    x >>= f = y >>= f := h ▸ rfl

theorem liveListOf_withSlots {s : State} {other : List Slot} {i : SlotIndex}
    (h : (s.withSlots other).slotAt i = s.slotAt i) : liveListOf (s.withSlots other) i = liveListOf s i :=
  bind_congr_left (listOf_withSlots h)

/-- What a command computes depends on its own slot alone of the slots. -/
theorem effectOf_withSlots {i : Instr} {s : State} {other : List Slot}
    (h : (s.withSlots other).slotAt i.slot = s.slotAt i.slot) : effectOf i (s.withSlots other) = effectOf i s := by
  cases i with
  | create slot | destroy slot | deserialize slot => rfl
  | append slot | size slot | total slot => exact bind_congr_left (listOf_withSlots h)
  | popfront slot | encode slot | decode slot | serialize slot => exact bind_congr_left (liveListOf_withSlots h)

theorem putSlot_slots_ne (s : State) (i : SlotIndex) (o : Option Slot) {k : Nat} (hk : k ≠ i.toNat) :
    (s.putSlot i o).slots[k]? = s.slots[k]? := by
  cases o with
  | none => rfl
  | some l => exact List.getElem?_set_ne hk.symm

theorem putSlot_slots_same {s s' : State} {i : SlotIndex} (o : Option Slot)
    (h : s'.slots[i.toNat]? = s.slots[i.toNat]?) :
    (s'.putSlot i o).slots[i.toNat]? = (s.putSlot i o).slots[i.toNat]? := by
  cases o with
  | none => exact h
  | some l => simp [List.getElem?_set_self', h]

/-- A commit writes everything but the slots without looking at them. -/
theorem commit_withSlots (i : SlotIndex) (e : Effect) (s : State) (other : List Slot) :
    commit i e (s.withSlots other) = (commit i e s).withSlots ((s.withSlots other).putSlot i e.slot).slots := by
  obtain ⟨slot, bytes, results⟩ := e
  cases slot <;> cases bytes <;> cases results <;> rfl

theorem exec_slots_ne {i : Instr} {s t : State} (h : exec i s = .next t) {k : Nat} (hk : k ≠ i.slot.toNat) :
    t.slots[k]? = s.slots[k]? := by
  obtain ⟨e, -, rfl⟩ | ⟨e, -, rfl⟩ := exec_next_cases h
  · rw [commit_slots, putSlot_slots_ne s i.slot e.slot hk]
  · rfl

theorem exec_withSlots_fault {i : Instr} {s : State} {other : List Slot}
    (hown : other[i.slot.toNat]? = s.slots[i.slot.toNat]?) {f : Fault} (h : exec i s = .fault f) :
    exec i (s.withSlots other) = .fault f := by
  have heff := effectOf_withSlots (State.slotAt_withSlots hown)
  obtain ⟨e, -, hx⟩ | ⟨e, -, hx⟩ | ⟨f', hf, hx⟩ := exec_cases i s
  · rw [hx] at h
    cases h
  · rw [hx] at h
    cases h
  · obtain rfl : f' = f := Host.Outcome.fault.inj (hx.symm.trans h)
    rw [exec_eq_runCommand]
    exact runCommand_fault (heff.trans hf)

/-- With other contents in the other slots a command ends in the same state but for those slots. -/
theorem exec_withSlots_next {i : Instr} {s t : State} {other : List Slot}
    (hown : other[i.slot.toNat]? = s.slots[i.slot.toNat]?) (h : exec i s = .next t) :
    ∃ l, exec i (s.withSlots other) = .next (t.withSlots l) ∧ l[i.slot.toNat]? = t.slots[i.slot.toNat]? := by
  have heff := effectOf_withSlots (State.slotAt_withSlots hown)
  obtain ⟨e, he, rfl⟩ | ⟨e, he, rfl⟩ := exec_next_cases h
  · refine ⟨((s.withSlots other).putSlot i.slot e.slot).slots, ?_, ?_⟩
    · rw [exec_eq_runCommand, runCommand_ok (heff.trans he), commit_withSlots]
    · rw [commit_slots]
      exact putSlot_slots_same e.slot hown
  · refine ⟨other, ?_, hown⟩
    rw [exec_eq_runCommand, runCommand_raise (heff.trans he)]
    rfl

/-- Settles O27: the effect is computed from the command's own slot and is put in that slot. -/
theorem commandsReadAndWriteOnlyTheirSlot : Obligations.CommandsReadAndWriteOnlyTheirSlot := by
  intro i s other _ hown
  refine ⟨fun t h => ⟨fun k hk => exec_slots_ne h hk, ?_⟩, fun f h => exec_withSlots_fault hown h⟩
  obtain ⟨l, hl, hsame⟩ := exec_withSlots_next hown h
  exact ⟨t.withSlots l, hl, rfl, hsame, fun k hk => exec_slots_ne hl hk⟩

end Sys2Proof.Machine
end

section
/-! PROOFS. The condition of a command's slot after it has succeeded (10_state.md R32). -/

namespace Sys2Proof.Machine

@[simp] theorem Slot.condition_absent : Slot.absent.condition = .absent := rfl

@[simp] theorem Slot.condition_drained : ({ present := true, runs := [] } : Slot).condition = .drained := rfl

theorem Slot.condition_live {runs : List Word} (h : runs ≠ []) :
    ({ present := true, runs := runs } : Slot).condition = .live := by
  simp [Slot.condition, h]

theorem encodeBit_ne_nil (runs : List Word) (b : Bool) : encodeBit runs b ≠ [] := by
  unfold encodeBit
  split
  · split
    · simp
    · simp
  · simp

theorem encodeBits_ne_nil (q : List Bool) : ∀ {runs : List Word}, runs ≠ [] → encodeBits runs q ≠ [] := by
  induction q with
  | nil => exact id
  | cons b q ih => exact fun {runs} _ => ih (encodeBit_ne_nil runs b)

theorem ParseState.finish_ne_nil {st : ParseState} {r : List Word × Nat} (h : st.finish = some r) : r.1 ≠ [] := by
  unfold ParseState.finish at h
  split at h
  · cases h
  · next hne =>
    cases h
    exact (not_or.mp hne).2

/-- The parser answers through `finish` alone, so it gives at least one count (R174). -/
theorem parseLoop_ne_nil (q : List Bool) (st : ParseState) {r : List Word × Nat} (h : parseLoop q st = some r) :
    r.1 ≠ [] := by
  fun_induction parseLoop q st with
  | case1 st => exact st.finish_ne_nil h
  | case2 p n1 n0 rest st => exact st.finish_ne_nil h
  | case5 p n1 n0 rest st _ st' _ ih => exact ih h
  | case7 p f5 f4 f3 f2 f1 f0 rest st st' _ ih => exact ih h
  | case3 | case4 | case6 | case8 | case9 | case10 | case11 | case12 | case13 | case14 | case15 | case16 => cases h

/-- The slot of a command that has committed `e`. -/
theorem slotAt_commit {i : SlotIndex} {e : Effect} {s : State} (h : s.HasSlot i) :
    (commit i e s).slotAt i = e.slot.getD (s.slotAt i) := by
  have hslot : (commit i e s).slotAt i = (s.putSlot i e.slot).slotAt i := by
    simp only [State.slotAt, commit_slots]
  rw [hslot]
  cases e.slot with
  | none => rfl
  | some l => exact s.slotAt_setSlot_same i l h

/-- Settles O38, command by command. -/
theorem slotConditionTransitions : Obligations.SlotConditionTransitions := by
  intro s t i hi h ht
  obtain ⟨e, he, rfl⟩ := exec_next_success h ht
  rw [slotAt_commit hi]
  cases i with
  | create slot | destroy slot =>
    cases he
    rfl
  | append slot =>
    obtain ⟨runs, -, -, rfl⟩ := appendEffect_ok he
    exact Slot.condition_live (by simp)
  | popfront slot =>
    obtain ⟨v, rest, hat, rfl⟩ := popfrontEffect_ok he
    cases rest with
    | nil => simp [hat]
    | cons w rest => simp [hat, Slot.condition]
  | size slot =>
    obtain ⟨_, -, rfl⟩ := sizeEffect_ok he
    rfl
  | total slot =>
    obtain ⟨_, -, rfl⟩ := totalEffect_ok he
    rfl
  | encode slot =>
    obtain ⟨runs, input, -, hne, -, -, rfl⟩ := encodeEffect_ok he
    exact Slot.condition_live (encodeBits_ne_nil _ hne)
  | decode slot =>
    obtain ⟨_, -, -, -, -, rfl⟩ := decodeEffect_ok he
    rfl
  | serialize slot =>
    obtain ⟨runs, hat, hne, -, -, rfl⟩ := serializeEffect_ok he
    rw [Option.getD_none]
    exact hat ▸ Slot.condition_live hne
  | deserialize slot =>
    obtain ⟨input, r, -, hparse, -, rfl⟩ := deserializeEffect_ok he
    exact Slot.condition_live (parseLoop_ne_nil _ _ hparse)

end Sys2Proof.Machine
end

section
/-! PROOFS. The host's transactions by offset and address (10_state.md R39 - R42), and the command a CMD write runs. -/

namespace Sys2Proof

/-- The fields of a command word (R70), for every command. -/
theorem encode_fields (i : Instr) :
    opcodeField (encode i) = i.opcode ∧ slotField (encode i) = i.slot ∧ reservedField (encode i) = 0 :=
  Laws.WordFields.of_fields i.slot i.opcode

@[simp] theorem decodeFields_encode (i : Instr) : decodeFields (encode i) = .ok i := by
  obtain ⟨hop, hslot, hrsvd⟩ := encode_fields i
  simp [decodeFields, hop, hslot, hrsvd]

theorem decode_encode {p : Params} {i : Instr} (h : i.WellFormed p) : decode p (encode i) = .ok i :=
  (decode_ok_iff p (encode i) i).mpr ⟨decodeFields_encode i, h⟩

@[simp] theorem tableWord_toNat (w : Word) : tableWord 64 w.toNat = w := by
  simp [tableWord, Nat.mod_eq_of_lt w.isLt]

end Sys2Proof

namespace Sys2Proof.Machine

/-- RegWrite by offset: no offset but 0x00 and those of the argument registers has an effect (R39). -/
theorem regWrite_eq_ite (off : Nat) (v : Word) (s : State) :
    regWrite off v s =
      if off = 0x00 then execute v (s.writeReg .cmd v)
      else if off = 0x08 then .next (s.writeReg .argA v)
      else if off = 0x10 then .next (s.writeReg .argB v)
      else if off = 0x18 then .next (s.writeReg .argC v)
      else if off = 0x20 then .next (s.writeReg .argD v)
      else .next s := by
  unfold regWrite registerAt
  split_ifs <;> rfl

/-- RegRead by offset (R21, R41). -/
theorem regReadValue_eq_ite (off : Nat) (s : State) :
    regReadValue off s =
      if off = 0x00 then s.cmd else if off = 0x08 then s.argA else if off = 0x10 then s.argB
      else if off = 0x18 then s.argC else if off = 0x20 then s.argD else if off = 0x28 then s.res0
      else if off = 0x30 then s.res1 else if off = 0x38 then s.status else 0 := by
  unfold regReadValue registerAt
  split_ifs <;> rfl

/-- A CMD write executes the word it wrote (R39, R40). -/
theorem step_cmdWrite {s : State} {rest : List Input} {w : Word} (hb : s.busy = false)
    (hin : s.inputs = .transaction (.regWrite 0x00 w) :: rest) :
    step s = execute w { s with inputs := rest, reply := .nothing, cmd := w } := by
  rw [step_transaction hin hb, transact, regWrite_cmd w _ rfl]
  rfl

theorem execute_decoded {s : State} {w : Word} {i : Instr} (h : decode s.params w = .ok i) :
    execute w s = exec i s := by
  simp [execute, h]

/-- Settles O6: the write executes its word, which decodes to the command. -/
theorem stepRunsTheDecodedCommand : Obligations.StepRunsTheDecodedCommand := by
  intro s rest w i hb hin hdec
  rw [step_cmdWrite hb hin]
  exact execute_decoded hdec

/-- Settles O7: the placed write is the next input, and its word decodes to the command. -/
theorem placedTableWordRunsNext : Obligations.PlacedTableWordRunsNext := by
  intro s i hb hwf
  rw [State.withFetchWord, tableWord_toNat]
  exact stepRunsTheDecodedCommand (issueNext (encode i) s) s.inputs (encode i) i hb rfl (decode_encode hwf)

/-- Settles O8: the input is used up, and the write has its effect by offset. -/
theorem regWriteEffects : Obligations.RegWriteEffects := by
  intro s rest off v hb hin
  rw [step_transaction hin hb]
  exact regWrite_eq_ite off v _

/-- Settles O9: the read by offset, and the four bits that a STATUS up to 6 is. -/
theorem regReadGivesTheRegister : Obligations.RegReadGivesTheRegister := by
  refine ⟨fun s rest off hb hin => ?_, fun s hs => ?_⟩
  · rw [step_transaction hin hb, transact, regReadValue_eq_ite]
    rfl
  · apply BitVec.eq_of_toNat_eq
    rw [BitVec.toNat_setWidth_of_le (by decide)]
    exact hs.ecode_toNat.symm

theorem bufWrite_inside {a : Nat} {s : State} (b : Byte) (h : a < s.params.bufBytes) :
    bufWrite a b s = s.setBuf (s.buf.write a b) := if_pos h

theorem bufWrite_outside {a : Nat} {s : State} (b : Byte) (h : s.params.bufBytes ≤ a) : bufWrite a b s = s :=
  if_neg (Nat.not_lt.mpr h)

theorem bufRead_outside {a : Nat} {s : State} (h : s.params.bufBytes ≤ a) :
    bufRead a s = .next (s.setReply (.byte 0)) := if_neg (Nat.not_lt.mpr h)

theorem bufRead_written {a : Nat} {s : State} {b : Byte} (h : a < s.params.bufBytes) (hr : s.buf.read a = some b) :
    bufRead a s = .next (s.setReply (.byte b)) := by
  simp [bufRead, h, hr]

theorem bufRead_unwritten {a : Nat} {s : State} (h : a < s.params.bufBytes) (hr : s.buf.read a = none) :
    bufRead a s = .fault (.unwrittenByte a) := by
  simp [bufRead, h, hr]

/-- Settles O10, by the side of BUF_BYTES the address is on. -/
theorem bufTransactions : Obligations.BufTransactions := by
  refine ⟨fun s rest a b hb hin => ?_, fun s rest a hb hin => ?_⟩
  · have hstep : step s = .next (bufWrite a b ((s.setInputs rest).setReply .nothing)) := step_transaction hin hb
    obtain ha | ha := Nat.lt_or_ge a s.params.bufBytes
    · rw [bufWrite_inside b (by simpa using ha)] at hstep
      exact ⟨s.buf.write a b, hstep,
        fun _ => ⟨s.buf.read_write_same a b, fun c hc => s.buf.read_write_ne a c b hc⟩,
        fun h => absurd ha (Nat.not_lt.mpr h)⟩
    · rw [bufWrite_outside b (by simpa using ha)] at hstep
      exact ⟨s.buf, hstep, fun h => absurd h (Nat.not_lt.mpr ha), fun _ => rfl⟩
  · have hstep : step s = bufRead a (s.setInputs rest) := step_transaction hin hb
    exact ⟨fun ha => hstep.trans (bufRead_outside ha), fun b ha hr => hstep.trans (bufRead_written ha hr),
      fun ha hr => hstep.trans (bufRead_unwritten ha hr)⟩

end Sys2Proof.Machine
end

section
/-! PROOFS. The state after reset (10_state.md R44): no byte of BUF holds a value, so a read of one faults the model. -/

namespace Sys2Proof.Machine

theorem sourceBytes_unwritten {s : State} (hsrc : s.SrcOk) (hlen : s.srcLen ≠ 0) (hr : s.buf.read s.src = none) :
    sourceBytes s = .error (.fault (.unwrittenByte s.src)) := by
  obtain ⟨n, hn⟩ := Nat.exists_eq_succ_of_ne_zero hlen
  have hread : s.buf.readBytes s.src s.srcLen = .error s.src := by
    rw [hn, Memory.readBytes, hr]
  obtain ⟨bs, -, -, h⟩ | ⟨-, h⟩ | ⟨a, hx, -, h⟩ := sourceBytes_cases s
  · rw [hread] at h
    cases h
  · exact absurd hsrc h
  · obtain rfl : s.src = a := Except.error.inj (hread.symm.trans h)
    exact hx

theorem exec_deserialize_source_fault {slot : SlotIndex} {s : State} {f : Fault}
    (h : sourceBytes s = .error (.fault f)) : exec (.deserialize slot) s = .fault f := by
  refine runCommand_fault ?_
  rw [deserializeEffect, h]
  rfl

/-- A LIVE slot holds a list with a run (R32). -/
theorem Slot.live_iff (l : Slot) : l.condition = .live ↔ l.present = true ∧ l.runs ≠ [] := by
  unfold Slot.condition
  split
  · split <;> simp [*]
  · simp [*]

theorem exec_encode_source_fault {slot : SlotIndex} {s : State} {f : Fault} (hlive : s.Live slot)
    (h : sourceBytes s = .error (.fault f)) : exec (.encode slot) s = .fault f := by
  refine runCommand_fault ?_
  obtain ⟨hp, hne⟩ := (Slot.live_iff _).mp hlive
  rw [encodeEffect, liveListOf_live hp hne, h]
  rfl

theorem State.not_busy_of_status_zero {s : State} (h : s.status = 0) : s.busy = false := by
  simp [State.busy, h]

/-- Settles O11: right after reset the first byte of every window is unwritten. -/
theorem stateAfterReset : Obligations.StateAfterReset := by
  refine ⟨fun p => ⟨rfl, rfl, rfl, rfl, rfl, rfl, rfl, rfl, rfl, rfl, fun _ => rfl, fun a ha => ?_,
    fun slot l a n hn hfits => ?_⟩, rfl⟩
  · rw [step_transaction rfl (State.not_busy_of_status_zero rfl)]
    exact bufRead_unwritten ha rfl
  · have hlen : n.toNat ≠ 0 := fun h => hn (BitVec.eq_of_toNat_eq h)
    have hsrc : sourceBytes { State.resetOf p with slots := l, argA := a, argB := n } =
        .error (.fault (.unwrittenByte a.toNat)) := sourceBytes_unwritten hfits hlen rfl
    exact ⟨exec_deserialize_source_fault hsrc, fun hlive => exec_encode_source_fault hlive hsrc⟩

end Sys2Proof.Machine
end

section
/-! PROOFS. Noninterference of BUF (20_memory.md R56): ENCODE and DESERIALIZE read BUF and leave it as it was; every
other command computes its effect without BUF, never faults, and writes at most its output window. -/

namespace Sys2Proof.Machine

/-- The computation never faults the model. -/
def NeverFaults {α : Type} (x : Except Halt α) : Prop := ∀ f, x ≠ .error (.fault f)

theorem neverFaults_ok {α : Type} (a : α) : NeverFaults (.ok a) := nofun

theorem neverFaults_bind {α β : Type} {x : Except Halt α} {f : α → Except Halt β} (hx : NeverFaults x)
    (hf : ∀ a, NeverFaults (f a)) : NeverFaults (x >>= f) := by
  cases x with
  | ok a => exact hf a
  | error halt => exact fun z h => hx z (congrArg Except.error (Except.error.inj h))

theorem neverFaults_check (c : Prop) [Decidable c] (e : ErrorCode) : NeverFaults (check c e) := by
  by_cases hc : c
  · rw [check_true e hc]
    nofun
  · rw [check_false e hc]
    nofun

theorem neverFaults_listOf (s : State) (i : SlotIndex) : NeverFaults (listOf s i) := by
  cases hp : (s.slotAt i).present with
  | true =>
    rw [listOf_present hp]
    nofun
  | false =>
    rw [listOf_absent hp]
    nofun

theorem neverFaults_liveListOf (s : State) (i : SlotIndex) : NeverFaults (liveListOf s i) :=
  neverFaults_bind (neverFaults_listOf s i) fun runs =>
    neverFaults_bind (neverFaults_check _ _) fun _ => neverFaults_ok runs

theorem neverFaults_checkDestination (s : State) (n : Nat) : NeverFaults (checkDestination s n) :=
  neverFaults_bind (neverFaults_check _ _) fun _ => neverFaults_check _ _

section
variable {i : Instr} (hi : ∀ slot, i ≠ .encode slot ∧ i ≠ .deserialize slot)
include hi

/-- Only the commands with a source window can fault the model. -/
theorem neverFaults_effectOf (s : State) : NeverFaults (effectOf i s) := by
  cases i with
  | encode slot => exact absurd rfl (hi slot).1
  | deserialize slot => exact absurd rfl (hi slot).2
  | create slot | destroy slot => exact neverFaults_ok _
  | append slot =>
    exact neverFaults_bind (neverFaults_listOf s slot) fun _ =>
      neverFaults_bind (neverFaults_check _ _) fun _ => neverFaults_ok _
  | popfront slot => exact neverFaults_bind (neverFaults_liveListOf s slot) fun _ => neverFaults_ok _
  | size slot | total slot => exact neverFaults_bind (neverFaults_listOf s slot) fun _ => neverFaults_ok _
  | decode slot | serialize slot =>
    exact neverFaults_bind (neverFaults_liveListOf s slot) fun _ =>
      neverFaults_bind (neverFaults_checkDestination s _) fun _ => neverFaults_ok _

theorem exec_answers (s : State) : ∃ t, exec i s = .next t := by
  obtain ⟨e, -, h⟩ | ⟨e, -, h⟩ | ⟨f, hf, -⟩ := exec_cases i s
  · exact ⟨_, h⟩
  · exact ⟨_, h⟩
  · exact absurd hf (neverFaults_effectOf hi s f)

/-- Only the commands with a source window read BUF. -/
theorem effectOf_setBuf (s : State) (m : Memory) : effectOf i (s.setBuf m) = effectOf i s := by
  cases i with
  | encode slot => exact absurd rfl (hi slot).1
  | deserialize slot => exact absurd rfl (hi slot).2
  | create slot | destroy slot | append slot | popfront slot | size slot | total slot | decode slot
  | serialize slot => rfl

end

/-- A commit writes everything but BUF without looking at BUF. -/
theorem commit_setBuf (i : SlotIndex) (e : Effect) (s : State) (m : Memory) :
    commit i e (s.setBuf m) = (commit i e s).setBuf (commit i e (s.setBuf m)).buf := by
  obtain ⟨slot, bytes, results⟩ := e
  cases slot <;> cases bytes <;> cases results <;> rfl

theorem outputLength_setBuf (i : Instr) (s : State) (m : Memory) : outputLength i (s.setBuf m) = outputLength i s := by
  cases i <;> rfl

/-- A command without output bytes has an empty output window. -/
theorem outputLength_eq_zero_of_bytes_none {i : Instr} {s : State} {e : Effect} (h : effectOf i s = .ok e)
    (hb : e.bytes = none) : outputLength i s = 0 := by
  refine outputLength_eq_zero s fun slot => ⟨?_, ?_⟩
  · rintro rfl
    obtain ⟨_, -, -, -, -, rfl⟩ := decodeEffect_ok h
    cases hb
  · rintro rfl
    obtain ⟨_, -, -, -, -, rfl⟩ := serializeEffect_ok h
    cases hb

/-- Inside the output window a commit leaves the same byte, whatever BUF held before. -/
theorem commit_buf_read_inside {i : Instr} {s : State} {e : Effect} (h : effectOf i s = .ok e) (m : Memory) {a : Nat}
    (hlo : s.argC.toNat ≤ a) (hhi : a < s.argC.toNat + outputLength i s) :
    (commit i.slot e (s.setBuf m)).buf.read a = (commit i.slot e s).buf.read a := by
  obtain hnone | ⟨bs, hbs, hlen, -⟩ := effectOf_bytes h
  · rw [outputLength_eq_zero_of_bytes_none h hnone] at hhi
    omega
  · obtain ⟨k, rfl⟩ := Nat.exists_eq_add_of_le hlo
    have hk : k < bs.length := by omega
    rw [commit_buf_eq, commit_buf_eq, hbs]
    exact (Memory.read_writeBytes_inside bs m _ k hk).trans (Memory.read_writeBytes_inside bs s.buf _ k hk).symm

/-- With other contents of BUF such a command ends in the same state outside BUF, and where it succeeds its output
window reads the same. -/
theorem exec_setBuf_next {i : Instr} {s t : State} (hi : ∀ slot, i ≠ .encode slot ∧ i ≠ .deserialize slot)
    (h : exec i s = .next t) (m : Memory) :
    ∃ m', exec i (s.setBuf m) = .next (t.setBuf m') ∧
      (t.status = 0 → ∀ a, s.argC.toNat ≤ a → a < s.argC.toNat + outputLength i s → m'.read a = t.buf.read a) := by
  have heff := effectOf_setBuf hi s m
  obtain ⟨e, he, rfl⟩ | ⟨e, he, rfl⟩ := exec_next_cases h
  · refine ⟨(commit i.slot e (s.setBuf m)).buf, ?_, fun _ a hlo hhi => commit_buf_read_inside he m hlo hhi⟩
    rw [exec_eq_runCommand, runCommand_ok (heff.trans he), ← commit_setBuf]
  · refine ⟨m, ?_, fun hzero => absurd hzero e.statusWord_ne_zero⟩
    rw [exec_eq_runCommand, runCommand_raise (heff.trans he)]
    rfl

/-- A byte that is not in the output window of a command that succeeded is as it was before. -/
theorem exec_buf_read_unwritten {i : Instr} {s t : State} (h : exec i s = .next t) {a : Nat}
    (ha : ¬(t.status = 0 ∧ s.argC.toNat ≤ a ∧ a < s.argC.toNat + outputLength i s)) :
    t.buf.read a = s.buf.read a := by
  by_cases ht : t.status = 0
  · have hout : ¬(s.argC.toNat ≤ a ∧ a < s.argC.toNat + outputLength i s) := fun hin => ha ⟨ht, hin⟩
    exact exec_buf_read_outside h (by omega)
  · obtain ⟨-, -, -, herror⟩ := bufFrame i s t h
    exact herror ht a

/-- The commands that read BUF put no bytes in it. -/
theorem exec_reader_buf {i : Instr} {s t : State} (hi : ∃ slot, i = .encode slot ∨ i = .deserialize slot)
    (h : exec i s = .next t) : t.buf = s.buf := by
  obtain ⟨e, he, rfl⟩ | ⟨e, -, rfl⟩ := exec_next_cases h
  · obtain ⟨slot, rfl | rfl⟩ := hi
    · obtain ⟨_, _, -, -, -, -, rfl⟩ := encodeEffect_ok he
      exact commit_buf_eq _ _ _
    · obtain ⟨_, _, -, -, -, rfl⟩ := deserializeEffect_ok he
      exact commit_buf_eq _ _ _
  · rfl

/-- Settles O28: one effect, computed without BUF, is committed over both contents of BUF. -/
theorem noCommandReadsAndWritesBuf : Obligations.NoCommandReadsAndWritesBuf := by
  refine fun i s m => ⟨fun hi t h => exec_reader_buf hi h, fun hi => ?_⟩
  obtain ⟨t, ht⟩ := exec_answers hi s
  obtain ⟨m', ht', hin⟩ := exec_setBuf_next hi ht m
  refine ⟨t, t.setBuf m', ht, ht', rfl, fun a => ?_⟩
  split
  case isTrue ha =>
    obtain ⟨hok, hlo, hhi⟩ := ha
    exact hin hok a hlo hhi
  case isFalse ha =>
    refine ⟨exec_buf_read_unwritten ht ha, exec_buf_read_unwritten ht' ?_⟩
    rwa [outputLength_setBuf]

end Sys2Proof.Machine
end

section
/-! PROOFS. The command word (30_encoding.md R70 - R76): its fields determine it, and which words decode. -/

namespace Sys2Proof

/-- The three fields cover a command word (R70). -/
theorem toNat_eq_fields (w : Word) :
    w.toNat = (reservedField w).toNat * 2 ^ 12 + (slotField w).toNat * 2 ^ 8 + (opcodeField w).toNat := by
  have hw := w.isLt
  simp only [reservedField, slotField, opcodeField, BitVec.extractLsb'_toNat, Nat.shiftRight_eq_div_pow]
  omega

/-- The command word as the number `K * 256 + OPCODE` (R90). -/
theorem encode_eq_ofNat (i : Instr) : encode i = BitVec.ofNat 64 (i.slot.toNat * 256 + i.opcode.toNat) := by
  obtain ⟨hop, hslot, hrsvd⟩ := encode_fields i
  have hslotLt := i.slot.isLt
  have hopLt := i.opcode.isLt
  have hzero : (0 : BitVec 52).toNat = 0 := rfl
  apply BitVec.eq_of_toNat_eq
  rw [toNat_eq_fields, hop, hslot, hrsvd, hzero, BitVec.toNat_ofNat]
  omega

/-- The fields of a word that passes the field checks are those of the command, so it is the command's word. -/
theorem encode_of_decodeFields {w : Word} {i : Instr} (h : decodeFields w = .ok i) : encode i = w := by
  obtain ⟨j, hj, hrsvd, hop, hslot⟩ | ⟨he, -⟩ | ⟨he, -⟩ := decodeFields_cases w
  · cases h.symm.trans hj
    obtain ⟨eop, eslot, ersvd⟩ := encode_fields i
    apply BitVec.eq_of_toNat_eq
    rw [toNat_eq_fields (encode i), toNat_eq_fields w, eop, eslot, ersvd, hop, hslot, hrsvd]
  · cases h.symm.trans he
  · cases h.symm.trans he

/-- Settles O1: the fields of the command word are the command's (R70), so the decoder reads the command back. -/
theorem decodeOfEncodeIsTheCommand : Obligations.DecodeOfEncodeIsTheCommand :=
  fun _ _ hwf => decode_encode hwf

/-- Settles O2: a word that decodes has the fields of its command, which determine it. -/
theorem legalWordEncodesItsCommand : Obligations.LegalWordEncodesItsCommand := by
  intro p w i h
  obtain ⟨hfields, hwf⟩ := (decode_ok_iff p w i).mp h
  exact ⟨encode_of_decodeFields hfields, hwf⟩

/-- The assigned OPCODE values (R72). -/
def opcodes : List (BitVec 8) := [0x01, 0x02, 0x03, 0x04, 0x05, 0x06, 0x10, 0x11, 0x20, 0x21]

theorem Instr.opcode_mem_opcodes (i : Instr) : i.opcode ∈ opcodes := by cases i <;> simp [Instr.opcode, opcodes]

/-- The opcode map is defined on the assigned opcodes. -/
theorem commandOfOpcode_of_mem_opcodes {op : BitVec 8} (h : op ∈ opcodes) (slot : SlotIndex) :
    ∃ i, commandOfOpcode op slot = some i := by
  simp only [opcodes, List.mem_cons, List.not_mem_nil, or_false] at h
  rcases h with rfl | rfl | rfl | rfl | rfl | rfl | rfl | rfl | rfl | rfl <;> exact ⟨_, rfl⟩

/-- The three checks of R74. -/
def LegalWord (p : Params) (w : Word) : Prop :=
  reservedField w = 0 ∧ opcodeField w ∈ opcodes ∧ (slotField w).toNat < p.numSlots

/-- A word that passes the checks of R74 decodes to a command with its opcode and slot. -/
theorem LegalWord.decode_ok {p : Params} {w : Word} (h : LegalWord p w) :
    ∃ i, decode p w = .ok i ∧ i.opcode = opcodeField w ∧ i.slot = slotField w := by
  obtain ⟨hrsvd, hop, hslot⟩ := h
  obtain ⟨i, hi⟩ := commandOfOpcode_of_mem_opcodes hop (slotField w)
  obtain ⟨hiop, hislot⟩ := opcode_of_commandOfOpcode hi
  have hfields : decodeFields w = .ok i := by simp [decodeFields, hrsvd, hi]
  have hwf : i.WellFormed p := by rwa [Instr.WellFormed, hislot]
  exact ⟨i, (decode_ok_iff p w i).mpr ⟨hfields, hwf⟩, hiop, hislot⟩

/-- A word that decodes passes the checks of R74: it is a command word. -/
theorem legalWord_of_decode_ok {p : Params} {w : Word} {i : Instr} (h : decode p w = .ok i) : LegalWord p w := by
  obtain ⟨rfl, hwf⟩ := legalWordEncodesItsCommand p w i h
  obtain ⟨hop, hslot, hrsvd⟩ := encode_fields i
  exact ⟨hrsvd, hop ▸ i.opcode_mem_opcodes, hslot ▸ hwf⟩

theorem not_legalWord_zero (p : Params) : ¬LegalWord p 0 := fun h => absurd h.2.1 (by decide)

end Sys2Proof

namespace Sys2Proof.Machine

/-- R75. -/
theorem execute_illegal {w : Word} {s : State} (h : ¬LegalWord s.params w) :
    execute w s = .next { s with status := 1 } := by
  obtain ⟨i, hdec, -⟩ | ⟨e, -, hexec⟩ := execute_cases w s
  · exact absurd (legalWord_of_decode_ok hdec) h
  · exact hexec

/-- Settles O3: the three checks of R74 are what a word needs to decode. -/
theorem commandDecodeDispatchesOrRaisesIllegal : Obligations.CommandDecodeDispatchesOrRaisesIllegal := by
  refine fun w s => ⟨fun hlegal => ?_, fun hillegal => execute_illegal hillegal⟩
  obtain ⟨i, hdec, hop, hslot⟩ := LegalWord.decode_ok (p := s.params) (w := w) hlegal
  exact ⟨i, hop, hslot, execute_decoded hdec⟩

/-- Settles O4, by running the decoder. -/
theorem writtenOutWordsDecode : Obligations.WrittenOutWordsDecode := by
  unfold Obligations.WrittenOutWordsDecode
  decide

/-- A step that writes an illegal word to CMD. -/
theorem step_illegalWrite {s : State} {rest : List Input} {w : Word} (hb : s.busy = false)
    (hin : s.inputs = .transaction (.regWrite 0x00 w) :: rest) (hw : ¬LegalWord s.params w) :
    step s = .next { s with inputs := rest, reply := .nothing, cmd := w, status := 1 } :=
  (step_cmdWrite hb hin).trans (execute_illegal hw)

/-- Settles O5: the write executes its word, which no check of R74 lets through; 0 is no assigned opcode. -/
theorem illegalWordOnlyReportsCodeOne : Obligations.IllegalWordOnlyReportsCodeOne :=
  ⟨fun _ _ _ hb hin hw => step_illegalWrite hb hin hw,
    fun _ _ hb hin => step_illegalWrite hb hin (not_legalWord_zero _)⟩

end Sys2Proof.Machine
end

section
/-! PROOFS. The lines of a host program (30_encoding.md R90, R91). -/

namespace Sys2Proof.Machine

/-- Settles O60: each line expands to its transactions by definition, and the command word is `K * 256 + OPCODE`. -/
theorem pseudoInstructionsExpand : Obligations.PseudoInstructionsExpand := by
  intro k a b
  simp [HostLine.expand, encode_eq_ofNat, Instr.slot, Instr.opcode, Register.offset]

end Sys2Proof.Machine
end

section
/-! PROOFS. The numbers that bit strings spell (00_scope.md R9). -/

namespace Sys2Proof.Machine

theorem natOfBits_bitsOfNat (n v : Nat) : natOfBits (bitsOfNat n v) = v % 2 ^ n := by
  induction n with
  | zero => simp [bitsOfNat, natOfBits, Nat.mod_one]
  | succ n ih =>
    have hcons : natOfBits (bitsOfNat (n + 1) v) = (v.testBit n).toNat * 2 ^ n + natOfBits (bitsOfNat n v) := by
      rw [bitsOfNat, ← List.singleton_append, natOfBits_append, bitsOfNat_length]
      simp [natOfBits]
    rw [hcons, ih, Nat.toNat_testBit, Nat.mod_pow_succ]
    ring

theorem natOfBits_wordBits (w : Word) : natOfBits (wordBits w) = w.toNat := by
  rw [wordBits, natOfBits_bitsOfNat, Nat.mod_eq_of_lt w.isLt]

theorem natOfBits_replicate (n : Nat) (b : Bool) : natOfBits (List.replicate n b) = b.toNat * (2 ^ n - 1) := by
  induction n with
  | zero => simp [natOfBits]
  | succ n ih =>
    have hpow := Nat.one_le_two_pow (n := n)
    rw [List.replicate_succ', natOfBits_append, ih]
    cases b
    · simp [natOfBits]
    · simp [natOfBits, Nat.pow_succ]
      omega

/-- The counts whose 64 bits are all the same. -/
theorem eq_zero_or_allOnes_of_wordBits {c : Word} {b : Bool} (h : wordBits c = List.replicate 64 b) :
    c = 0 ∨ c = BitVec.allOnes 64 := by
  have hc : c.toNat = b.toNat * (2 ^ 64 - 1) := by rw [← natOfBits_wordBits, h, natOfBits_replicate]
  cases b with
  | false => exact .inl (BitVec.eq_of_toNat_eq (by simpa using hc))
  | true => exact .inr (BitVec.eq_of_toNat_eq (by simpa using hc))

end Sys2Proof.Machine
end

section
/-! PROOFS. The headers of a count group (30_encoding.md R80 - R83) and the sizes that follow (R88). -/

namespace Sys2Proof.Machine

theorem header_of_le_three {p : Pair} (h : p.length ≤ 3) :
    header p = [p.bit, false, p.length.testBit 1, p.length.testBit 0] := by
  simp [header, h, header4, bitsOfNat]

theorem header_of_four_le {p : Pair} (h : 4 ≤ p.length) : header p = p.bit :: true :: bitsOfNat 6 (p.length % 64) :=
  if_neg (by omega)

/-- Settles O49, by the range of the length. -/
theorem headerLayout : Obligations.HeaderLayout := by
  refine fun p => ⟨fun _ h3 => header_of_le_three h3, fun h4 h63 => ?_, fun h64 => ?_⟩
  · rw [header_of_four_le h4, Nat.mod_eq_of_lt (by omega)]
    rfl
  · rw [header_of_four_le (by omega), h64]
    rfl

theorem header_length (p : Pair) : (header p).length = if p.length ≤ 3 then 4 else 8 := by
  split
  next h => simp [header_of_le_three h]
  next h => simp [header_of_four_le (p := p) (by omega)]

/-! ### The stretches of a bit string (R161) -/

/-- The bits that a list of pairs stands for. -/
def pairBits (ps : List Pair) : List Bool := ps.flatMap (fun p => List.replicate p.length p.bit)

/-- What one more bit in front does to the stretches. -/
theorem stretches_cons_cases (b : Bool) (rest : List Bool) :
    (∃ p ps, stretches rest = p :: ps ∧ p.bit = b ∧
      stretches (b :: rest) = { p with length := p.length + 1 } :: ps) ∨
    stretches (b :: rest) = { bit := b, length := 1 } :: stretches rest := by
  rw [stretches]
  split
  next h => exact .inr (by rw [h])
  next p ps h =>
    split
    next hb => exact .inl ⟨p, ps, h, hb, rfl⟩
    next => exact .inr (by rw [h])

/-- The stretches stand for the bits they group. -/
theorem pairBits_stretches (q : List Bool) : pairBits (stretches q) = q := by
  induction q with
  | nil => rfl
  | cons b rest ih =>
    obtain ⟨p, ps, hrest, rfl, h⟩ | h := stretches_cons_cases b rest
    · rw [h]
      rw [hrest] at ih
      simpa [pairBits, List.replicate_succ] using ih
    · rw [h]
      simpa [pairBits] using ih

theorem one_le_length_of_mem_stretches (q : List Bool) : ∀ p ∈ stretches q, 1 ≤ p.length := by
  induction q with
  | nil => simp [stretches]
  | cons b rest ih =>
    obtain ⟨p, ps, hrest, -, h⟩ | h := stretches_cons_cases b rest
    · rw [h]
      rw [hrest] at ih
      exact List.forall_mem_cons.mpr ⟨Nat.le_add_left 1 _, (List.forall_mem_cons.mp ih).2⟩
    · simpa [h] using ih

theorem pairBits_length (ps : List Pair) : (pairBits ps).length = (ps.map Pair.length).sum := by
  simp [pairBits, List.length_flatMap]

theorem pairBits_pairs (c : Word) : pairBits (pairs c) = wordBits c := pairBits_stretches _

theorem pairs_length_sum (c : Word) : ((pairs c).map Pair.length).sum = 64 := by
  rw [← pairBits_length, pairBits_pairs, wordBits_length]

theorem one_le_length_of_mem_pairs {c : Word} {p : Pair} (h : p ∈ pairs c) : 1 ≤ p.length :=
  one_le_length_of_mem_stretches _ p h

/-! ### Sizes -/

/-- A header takes at most 4 bits for each bit of its pair. -/
theorem flatMap_header_length_le (ps : List Pair) (h : ∀ p ∈ ps, 1 ≤ p.length) :
    (ps.flatMap header).length ≤ 4 * (ps.map Pair.length).sum := by
  induction ps with
  | nil => simp
  | cons p ps ih =>
    obtain ⟨hp, hps⟩ := List.forall_mem_cons.mp h
    have := ih hps
    simp only [List.flatMap_cons, List.length_append, header_length, List.map_cons, List.sum_cons]
    split <;> omega

/-- The line under the header sizes, 4 for lengths up to 3 and 8 for lengths up to 64, that touches both ends. -/
theorem le_flatMap_header_length (ps : List Pair) (h : ∀ p ∈ ps, p.length ≤ 64) :
    (ps.map Pair.length).sum + 61 * ps.length ≤ 16 * (ps.flatMap header).length := by
  induction ps with
  | nil => simp
  | cons p ps ih =>
    obtain ⟨hp, hps⟩ := List.forall_mem_cons.mp h
    have := ih hps
    simp only [List.flatMap_cons, List.length_append, header_length, List.map_cons, List.sum_cons, List.length_cons]
    split <;> omega

theorem length_le_64_of_mem_pairs {c : Word} {p : Pair} (h : p ∈ pairs c) : p.length ≤ 64 :=
  pairs_length_sum c ▸ List.single_le_sum (fun _ _ => Nat.zero_le _) _ (List.mem_map_of_mem h)

theorem countGroup_length_le (c : Word) : (countGroup c).length ≤ 256 := by
  have := flatMap_header_length_le (pairs c) (fun _ => one_le_length_of_mem_pairs)
  rwa [pairs_length_sum] at this

/-- A lower bound by the number of pairs: 8 bits for one pair, more than 8 for two. -/
theorem le_countGroup_length (c : Word) : 64 + 61 * (pairs c).length ≤ 16 * (countGroup c).length := by
  have := le_flatMap_header_length (pairs c) (fun _ => length_le_64_of_mem_pairs)
  rwa [pairs_length_sum] at this

theorem pairs_ne_nil (c : Word) : pairs c ≠ [] := by
  intro h
  have := pairs_length_sum c
  simp [h] at this

/-- A count that is one pair is 0 or 2^64 - 1. -/
theorem eq_zero_or_allOnes_of_pairs {c : Word} {p : Pair} (h : pairs c = [p]) : c = 0 ∨ c = BitVec.allOnes 64 := by
  have hlen : p.length = 64 := by simpa [h] using pairs_length_sum c
  have hbits := pairBits_pairs c
  rw [h] at hbits
  exact eq_zero_or_allOnes_of_wordBits (b := p.bit) (by simpa [pairBits, hlen] using hbits.symm)

theorem countGroup_length_eq_eight_iff (c : Word) :
    (countGroup c).length = 8 ↔ c = 0 ∨ c = BitVec.allOnes 64 := by
  constructor
  · intro h8
    have hbound := le_countGroup_length c
    match hpairs : pairs c with
    | [] => exact absurd hpairs (pairs_ne_nil c)
    | [p] => exact eq_zero_or_allOnes_of_pairs hpairs
    | p :: q :: ps =>
      simp only [hpairs, List.length_cons] at hbound
      omega
  · rintro (rfl | rfl) <;> decide

theorem headers_length_le (runs : List Word) : (headers runs).length ≤ 256 * runs.length := by
  induction runs with
  | nil => simp [headers]
  | cons c runs ih =>
    have := countGroup_length_le c
    simp only [headers, List.flatMap_cons, List.length_append, List.length_cons] at ih ⊢
    omega

theorem padTail_length (hb : List Bool) :
    (padTail hb).length = hb.length + if hb.length % 8 = 4 then 4 else 0 := by
  unfold padTail
  split <;> simp

/-- Settles O52: a group's size by its number of pairs, and the padding nibble fills a byte that is there already. -/
theorem wireSizeBounds : Obligations.WireSizeBounds := by
  refine ⟨fun c => ⟨?_, countGroup_length_le c, countGroup_length_eq_eight_iff c⟩, fun runs => ?_⟩
  · have := le_countGroup_length c
    have := List.length_pos_iff.mpr (pairs_ne_nil c)
    omega
  · have := headers_length_le runs
    rw [wireBytes, pack_length, padTail_length]
    split <;> omega

end Sys2Proof.Machine
end

section
/-! PROOFS. The parser accepts the wire streams (30_encoding.md R80 - R86, 42_wire_codec.md R173 - R177): the bits are cut
into headers, and the headers into groups of 64. -/

namespace Sys2Proof.Machine

/-! ### Headers -/

theorem IsHeader.one_le_length {bits : List Bool} {p : Pair} (h : IsHeader bits p) : 1 ≤ p.length := by
  obtain ⟨n1, n0, -, -, hne⟩ | ⟨f5, f4, f3, f2, f1, f0, -, ⟨hne, hlen⟩ | ⟨-, hlen⟩⟩ := h
  · omega
  · omega
  · omega

/-- Take in the pairs of a list of headers, one after the other. -/
def ParseState.pushAll : List (List Bool × Pair) → ParseState → Option ParseState
  | [], st => some st
  | x :: hs, st => (st.push x.2.bit x.2.length x.1.length).bind (ParseState.pushAll hs)

theorem ParseState.pushAll_append (hs hs' : List (List Bool × Pair)) (st : ParseState) :
    pushAll (hs ++ hs') st = (pushAll hs st).bind (pushAll hs') := by
  induction hs generalizing st with
  | nil => rfl
  | cons x hs ih =>
    rw [List.cons_append, pushAll, pushAll, Option.bind_assoc]
    exact congrArg _ (funext ih)

/-- The bits of a list of headers. -/
def headerBits (hs : List (List Bool × Pair)) : List Bool := hs.flatMap Prod.fst

@[simp] theorem headerBits_cons (x : List Bool × Pair) (hs : List (List Bool × Pair)) :
    headerBits (x :: hs) = x.1 ++ headerBits hs := rfl

@[simp] theorem headerBits_append (hs hs' : List (List Bool × Pair)) :
    headerBits (hs ++ hs') = headerBits hs ++ headerBits hs' := List.flatMap_append

/-- What may follow the last group: nothing or one `0000` nibble (R86). -/
def IsTail (q : List Bool) : Prop := q = [] ∨ q = [false, false, false, false]

/-- The parser takes in the pair of a header and goes on behind it. -/
theorem parseLoop_header {bits : List Bool} {p : Pair} (h : IsHeader bits p) (rest : List Bool) (st : ParseState) :
    parseLoop (bits ++ rest) st = (st.push p.bit p.length bits.length).bind (parseLoop rest) := by
  obtain ⟨n1, n0, rfl, hlen, hne⟩ | ⟨f5, f4, f3, f2, f1, f0, rfl, hlen⟩ := h
  · simp only [List.cons_append, List.nil_append, parseLoop, ← hlen, if_neg hne]
    cases st.push p.bit p.length 4 <;> rfl
  · have hext : extendedLength (natOfBits [f5, f4, f3, f2, f1, f0]) = p.length := by
      obtain ⟨hne, hlen⟩ | ⟨hz, hlen⟩ := hlen
      · rw [extendedLength, if_neg hne, hlen]
      · rw [extendedLength, if_pos hz, hlen]
    simp only [List.cons_append, List.nil_append, parseLoop, hext]
    cases st.push p.bit p.length 8 <;> rfl

/-- Behind the last group the parser only checks that it is complete: the padding nibble adds nothing. -/
theorem parseLoop_tail {q : List Bool} (h : IsTail q) (st : ParseState) : parseLoop q st = st.finish := by
  obtain rfl | rfl := h
  · rfl
  · by_cases hf : st.filled = 0
    · simp [parseLoop, natOfBits, hf]
    · simp [parseLoop, natOfBits, hf, ParseState.finish]

theorem parseLoop_headerBits {hs : List (List Bool × Pair)} (h : ∀ x ∈ hs, IsHeader x.1 x.2) {q : List Bool}
    (hq : IsTail q) (st : ParseState) :
    parseLoop (headerBits hs ++ q) st = (st.pushAll hs).bind ParseState.finish := by
  induction hs generalizing st with
  | nil => exact parseLoop_tail hq st
  | cons x hs ih =>
    rw [List.forall_mem_cons] at h
    rw [headerBits_cons, List.append_assoc, parseLoop_header h.1, ParseState.pushAll, Option.bind_assoc]
    exact congrArg _ (funext (ih h.2))

/-- The parser gets to the end only over headers, then nothing or the padding nibble. -/
theorem headers_of_parseLoop {q : List Bool} {st : ParseState} {r : List Word × Nat} (h : parseLoop q st = some r) :
    ∃ hs tail, (∀ x ∈ hs, IsHeader x.1 x.2) ∧ IsTail tail ∧ q = headerBits hs ++ tail := by
  fun_induction parseLoop q st with
  | case1 st => exact ⟨[], [], by simp, .inl rfl, rfl⟩
  | case2 p n1 n0 rest st hz hpad =>
    obtain ⟨rfl, -, rfl⟩ := hpad
    have hn : n1 = false ∧ n0 = false := by revert hz; cases n1 <;> cases n0 <;> decide
    obtain ⟨rfl, rfl⟩ := hn
    exact ⟨[], _, by simp, .inr rfl, rfl⟩
  | case5 p n1 n0 rest st hne st' _ ih =>
    obtain ⟨hs, tail, hhs, htail, rfl⟩ := ih h
    have hx : IsHeader [p, false, n1, n0] ⟨p, natOfBits [n1, n0]⟩ := .inl ⟨n1, n0, rfl, rfl, hne⟩
    exact ⟨(_, _) :: hs, tail, List.forall_mem_cons.mpr ⟨hx, hhs⟩, htail, rfl⟩
  | case7 p f5 f4 f3 f2 f1 f0 rest st st' _ ih =>
    obtain ⟨hs, tail, hhs, htail, rfl⟩ := ih h
    have hx : IsHeader [p, true, f5, f4, f3, f2, f1, f0] ⟨p, extendedLength (natOfBits [f5, f4, f3, f2, f1, f0])⟩ := by
      refine .inr ⟨f5, f4, f3, f2, f1, f0, rfl, ?_⟩
      by_cases hz : natOfBits [f5, f4, f3, f2, f1, f0] = 0
      · exact .inr ⟨hz, if_pos hz⟩
      · exact .inl ⟨hz, if_neg hz⟩
    exact ⟨(_, _) :: hs, tail, List.forall_mem_cons.mpr ⟨hx, hhs⟩, htail, rfl⟩
  | case3 | case4 | case6 | case8 | case9 | case10 | case11 | case12 | case13 | case14 | case15 | case16 => cases h

/-! ### Groups -/

/-- The number of count bits that the pairs of a list of headers have. -/
def groupLength (g : List (List Bool × Pair)) : Nat := (g.map (fun x => x.2.length)).sum

@[simp] theorem groupLength_cons (x : List Bool × Pair) (g : List (List Bool × Pair)) :
    groupLength (x :: g) = x.2.length + groupLength g := rfl

@[simp] theorem groupLength_concat (g : List (List Bool × Pair)) (x : List Bool × Pair) :
    groupLength (g ++ [x]) = groupLength g + x.2.length := by
  simp [groupLength]

theorem groupLength_pos {g : List (List Bool × Pair)} (h : ∀ x ∈ g, IsHeader x.1 x.2) (hne : g ≠ []) :
    0 < groupLength g := by
  cases g with
  | nil => exact absurd rfl hne
  | cons x g =>
    have := (h x List.mem_cons_self).one_le_length
    rw [groupLength_cons]
    omega

/-- The count bits that the pairs of a list of headers stand for. -/
def groupBits (g : List (List Bool × Pair)) : List Bool := g.flatMap (fun x => List.replicate x.2.length x.2.bit)

@[simp] theorem groupBits_cons (x : List Bool × Pair) (g : List (List Bool × Pair)) :
    groupBits (x :: g) = List.replicate x.2.length x.2.bit ++ groupBits g := rfl

/-- The parser's state with the bits `e` of an unfinished count in the accumulator. -/
def ParseState.holding (e : List Bool) (counts : List Word) (pos : Nat) : ParseState :=
  { acc := natOfBits e, filled := e.length, counts := counts, pos := pos }

section
variable {e : List Bool} {b : Bool} {counts : List Word} {n pos hbits : Nat}

theorem ParseState.push_below (h : e.length + n < 64) :
    (holding e counts pos).push b n hbits = some (holding (e ++ List.replicate n b) counts (pos + hbits)) := by
  have h1 : ¬64 < e.length + n := by omega
  have h2 : e.length + n ≠ 64 := by omega
  simp [push, holding, h1, h2, natOfBits_append, natOfBits_replicate]

theorem ParseState.push_full (h : e.length + n = 64) :
    (holding e counts pos).push b n hbits =
      some (holding [] (counts ++ [BitVec.ofNat 64 (natOfBits (e ++ List.replicate n b))]) (pos + hbits)) := by
  simp [push, holding, h, natOfBits_append, natOfBits_replicate]
  rfl
end

/-- A group, or the rest of one whose bits `e` are in already, becomes one count. -/
theorem ParseState.pushAll_rest {g : List (List Bool × Pair)} (hg : ∀ x ∈ g, IsHeader x.1 x.2) (hne : g ≠ [])
    {e : List Bool} (hsum : e.length + groupLength g = 64) (counts : List Word) (pos : Nat) :
    (holding e counts pos).pushAll g =
      some (holding [] (counts ++ [BitVec.ofNat 64 (natOfBits (e ++ groupBits g))])
        (pos + (headerBits g).length)) := by
  induction g generalizing e pos with
  | nil => exact absurd rfl hne
  | cons x g ih =>
    rw [groupLength_cons] at hsum
    rw [List.forall_mem_cons] at hg
    by_cases hg0 : g = []
    · subst hg0
      rw [pushAll, push_full (by simpa [groupLength] using hsum)]
      simp [pushAll, headerBits, groupBits]
    · have := groupLength_pos hg.2 hg0
      rw [pushAll, push_below (by omega), Option.bind_some,
        ih hg.2 hg0 (by rw [List.length_append, List.length_replicate]; omega)]
      simp [Nat.add_assoc]

theorem IsGroup.ne_nil {g : List (List Bool × Pair)} (h : IsGroup g) : g ≠ [] := by
  rintro rfl
  exact absurd h.2 (by decide)

theorem ParseState.pushAll_groups {gs : List (List (List Bool × Pair))} (h : ∀ g ∈ gs, IsGroup g)
    (counts : List Word) (pos : Nat) :
    (holding [] counts pos).pushAll gs.flatten =
      some (holding [] (counts ++ gs.map groupCount) (pos + (headerBits gs.flatten).length)) := by
  induction gs generalizing counts pos with
  | nil => simp [pushAll, headerBits]
  | cons g gs ih =>
    rw [List.forall_mem_cons] at h
    obtain ⟨hheaders, hsum⟩ := h.1
    rw [List.flatten_cons, pushAll_append, pushAll_rest hheaders h.1.ne_nil (e := []) ((Nat.zero_add _).trans hsum),
      Option.bind_some, ih h.2]
    simp [groupCount, groupBits, Nat.add_assoc]

theorem ParseState.push_some {st st' : ParseState} {b : Bool} {n hbits : Nat} (h : st.push b n hbits = some st') :
    (st.filled + n = 64 ∧ st'.filled = 0) ∨ (st.filled + n < 64 ∧ st'.filled = st.filled + n) := by
  unfold push at h
  split_ifs at h with hover hfull
  · cases h
    exact .inl ⟨hfull, rfl⟩
  · cases h
    exact .inr ⟨by omega, rfl⟩

/-- Headers that the parser takes in, up to a complete count, are cut into groups; `g` is the part of the first group that
is in already. -/
theorem ParseState.groups_of_pushAll {hs g : List (List Bool × Pair)} {st st' : ParseState}
    (hheaders : ∀ x ∈ g ++ hs, IsHeader x.1 x.2) (hg : st.filled = groupLength g)
    (h : st.pushAll hs = some st') (hend : st'.filled = 0) :
    ∃ gs : List (List (List Bool × Pair)), gs.flatten = g ++ hs ∧ ∀ G ∈ gs, IsGroup G := by
  induction hs generalizing g st with
  | nil =>
    obtain rfl : st = st' := Option.some.inj h
    have hnil : g = [] := by
      by_contra hne
      have := groupLength_pos (by simpa using hheaders) hne
      omega
    exact ⟨[], by simp [hnil], by simp⟩
  | cons x hs ih =>
    obtain ⟨st1, hpush, hrest⟩ := Option.bind_eq_some_iff.mp h
    rw [List.append_cons] at hheaders ⊢
    obtain ⟨hfull, h0⟩ | ⟨-, hmore⟩ := push_some hpush
    · rw [List.forall_mem_append] at hheaders
      obtain ⟨gs, hgs, hgroups⟩ := ih (g := []) hheaders.2 h0 hrest
      have hgroup : IsGroup (g ++ [x]) := ⟨hheaders.1, (groupLength_concat g x).trans (hg ▸ hfull)⟩
      exact ⟨(g ++ [x]) :: gs, by simp [hgs], List.forall_mem_cons.mpr ⟨hgroup, hgroups⟩⟩
    · exact ih hheaders (by rw [hmore, hg, groupLength_concat]) hrest

/-! ### The parser -/

theorem ParseState.finish_some {st : ParseState} {r : List Word × Nat} (h : st.finish = some r) :
    st.filled = 0 ∧ st.counts ≠ [] ∧ r = (st.counts, st.pos) := by
  unfold finish at h
  split_ifs at h with hbad
  obtain ⟨hfilled, hcounts⟩ := not_or.mp hbad
  exact ⟨not_not.mp hfilled, hcounts, (Option.some.inj h).symm⟩

theorem ParseState.finish_holding {counts : List Word} (h : counts ≠ []) (pos : Nat) :
    (holding [] counts pos).finish = some (counts, pos) := by
  simp [finish, holding, h]

/-- What the parser gives on groups. -/
theorem parse_groups {gs : List (List (List Bool × Pair))} (hgs : ∀ g ∈ gs, IsGroup g) {tail : List Bool}
    (htail : IsTail tail) {input : List Byte} (hq : streamBits input = headerBits gs.flatten ++ tail) :
    parse input = (ParseState.holding [] (gs.map groupCount) (headerBits gs.flatten).length).finish := by
  have hheaders : ∀ x ∈ gs.flatten, IsHeader x.1 x.2 := by
    intro x hx
    obtain ⟨g, hg, hxg⟩ := List.mem_flatten.mp hx
    exact (hgs g hg).1 x hxg
  have hstart : ParseState.start = ParseState.holding [] [] 0 := rfl
  rw [parse, hq, parseLoop_headerBits hheaders htail, hstart, ParseState.pushAll_groups hgs, Option.bind_some,
    List.nil_append, Nat.zero_add]

/-- A stream that the parser accepts is groups, then nothing or the padding nibble. -/
theorem groups_of_parse {input : List Byte} {r : List Word × Nat} (h : parse input = some r) :
    ∃ (gs : List (List (List Bool × Pair))) (tail : List Bool), (∀ g ∈ gs, IsGroup g) ∧ IsTail tail ∧
      streamBits input = headerBits gs.flatten ++ tail := by
  obtain ⟨hs, tail, hheaders, htail, hq⟩ := headers_of_parseLoop h
  rw [parse, hq, parseLoop_headerBits hheaders htail] at h
  obtain ⟨st, hpush, hfinish⟩ := Option.bind_eq_some_iff.mp h
  obtain ⟨hfilled, -, -⟩ := st.finish_some hfinish
  obtain ⟨gs, rfl, hgs⟩ := ParseState.groups_of_pushAll (g := []) hheaders rfl hpush hfilled
  exact ⟨gs, tail, hgs, htail, hq⟩

/-- A stream of groups and a tail, written with the tail apart. -/
theorem isWireStream_iff (q : List Bool) (counts : List Word) (used : Nat) :
    IsWireStream q counts used ↔ ∃ (gs : List (List (List Bool × Pair))) (tail : List Bool), gs ≠ [] ∧
      (∀ g ∈ gs, IsGroup g) ∧ IsTail tail ∧ q = headerBits gs.flatten ++ tail ∧
      counts = gs.map groupCount ∧ used = (headerBits gs.flatten).length := by
  constructor
  · rintro ⟨gs, hne, hgs, hcounts, hused, hq | hq⟩
    · exact ⟨gs, [], hne, hgs, .inl rfl, hq.trans (List.append_nil _).symm, hcounts, hused⟩
    · exact ⟨gs, _, hne, hgs, .inr rfl, hq, hcounts, hused⟩
  · rintro ⟨gs, tail, hne, hgs, rfl | rfl, hq, hcounts, hused⟩
    · exact ⟨gs, hne, hgs, hcounts, hused, .inl (hq.trans (List.append_nil _))⟩
    · exact ⟨gs, hne, hgs, hcounts, hused, .inr hq⟩

/-- Settles O56: a stream that parses is made of groups, and on groups the parser gives the counts and the header bits
they have. -/
theorem parserAcceptsExactlyTheWireFormat : Obligations.ParserAcceptsExactlyTheWireFormat := by
  intro input counts used
  rw [isWireStream_iff]
  constructor
  · intro h
    obtain ⟨gs, tail, hgs, htail, hq⟩ := groups_of_parse h
    rw [parse_groups hgs htail hq] at h
    obtain ⟨-, hcounts, hr⟩ := ParseState.finish_some h
    obtain ⟨rfl, rfl⟩ := Prod.mk.inj hr
    exact ⟨gs, tail, fun hnil => hcounts (by simp [hnil, ParseState.holding]), hgs, htail, hq, rfl, rfl⟩
  · rintro ⟨gs, tail, hne, hgs, htail, hq, rfl, rfl⟩
    rw [parse_groups hgs htail hq]
    exact ParseState.finish_holding (by simpa using hne) _

end Sys2Proof.Machine
end

section
/-! PROOFS. The run-list store (40_list.md R100 - R110): each command's effect from the contents of its slot, and what
the command then answers. -/

namespace Sys2Proof.Machine

/-! ### From the effect to the answer -/

theorem exec_of_ok {i : Instr} {s : State} {e : Effect} (h : effectOf i s = .ok e) :
    exec i s = .next (commit i.slot e s) := by
  rw [exec_eq_runCommand]
  exact runCommand_ok h

theorem exec_of_raise {i : Instr} {s : State} {e : ErrorCode} (h : effectOf i s = .error (.raise e)) :
    exec i s = .next { s with status := e.statusWord } := by
  rw [exec_eq_runCommand]
  exact runCommand_raise h

theorem bind_of_ok {α β : Type} {x : Except Halt α} {f : α → Except Halt β} {a : α} (h : x = .ok a) :
    x >>= f = f a := h ▸ rfl

theorem bind_of_error {α β : Type} {x : Except Halt α} {f : α → Except Halt β} {halt : Halt} (h : x = .error halt) :
    x >>= f = .error halt := h ▸ rfl

/-! ### Slots that stay -/

/-- The commands that only read their list (R108, R110, R160). -/
theorem effectOf_slot_none {i : Instr} {s : State} {e : Effect} (h : effectOf i s = .ok e)
    (hi : ∃ slot, i = .size slot ∨ i = .total slot ∨ i = .serialize slot) : e.slot = none := by
  obtain ⟨slot, rfl | rfl | rfl⟩ := hi
  · obtain ⟨_, -, rfl⟩ := sizeEffect_ok h
    rfl
  · obtain ⟨_, -, rfl⟩ := totalEffect_ok h
    rfl
  · obtain ⟨_, -, -, -, -, rfl⟩ := serializeEffect_ok h
    rfl

/-- Settles O26: these commands commit no slot, and an error writes STATUS alone. -/
theorem slotFrame : Obligations.SlotFrame := by
  intro i s t h hi
  obtain ⟨e, he, rfl⟩ | ⟨e, -, rfl⟩ := exec_next_cases h
  · have hnone := effectOf_slot_none he (hi.resolve_right fun hne => hne (commit_status _ _ _))
    rw [commit_slots, hnone, State.putSlot_none]
  · rfl

/-! ### CREATE and DESTROY -/

theorem exec_create (s : State) (slot : SlotIndex) :
    exec (.create slot) s =
      .next { s with slots := s.slots.set slot.toNat { present := true, runs := [0] }, status := 0 } :=
  rfl

theorem exec_destroy (s : State) (slot : SlotIndex) :
    exec (.destroy slot) s =
      .next { s with slots := s.slots.set slot.toNat { present := false, runs := [] }, status := 0 } :=
  rfl

theorem slotAt_of_exec_create {s t : State} {slot : SlotIndex} (hs : s.HasSlot slot)
    (h : exec (.create slot) s = .next t) : t.slotAt slot = { present := true, runs := [0] } := by
  obtain rfl := Host.Outcome.next.inj ((exec_create s slot).symm.trans h)
  exact s.slotAt_setSlot_same slot _ hs

theorem slotAt_of_exec_destroy {s t : State} {slot : SlotIndex} (hs : s.HasSlot slot)
    (h : exec (.destroy slot) s = .next t) : t.slotAt slot = Slot.absent := by
  obtain rfl := Host.Outcome.next.inj ((exec_destroy s slot).symm.trans h)
  exact s.slotAt_setSlot_same slot _ hs

/-- Settles O30: the effect is the same in every state, and the slot then holds its one run of 0. -/
theorem createMakesTheSeededList : Obligations.CreateMakesTheSeededList := by
  refine fun s slot => ⟨exec_create s slot, fun hs t h => ?_⟩
  rw [slotAt_of_exec_create hs h]
  exact ⟨rfl, rfl, rfl, rfl⟩

/-- Settles O31: the effect is the same in every state, and an ABSENT slot is set to what it holds. -/
theorem destroyMakesTheSlotAbsent : Obligations.DestroyMakesTheSlotAbsent := by
  refine fun s slot => ⟨exec_destroy s slot, fun habsent => ?_⟩
  have hsame : s.slots.set slot.toNat { present := false, runs := [] } = s.slots :=
    congrArg State.slots (habsent ▸ s.setSlot_slotAt slot)
  rw [exec_destroy, hsame]

/-! ### ABSENT slots -/

/-- The list is what each of these commands takes first, before every other check (R103, R211). -/
theorem effectOf_absent {i : Instr} {s : State} {slot : SlotIndex}
    (hi : i ∈ [Instr.append slot, .popfront slot, .size slot, .total slot, .encode slot, .decode slot,
      .serialize slot])
    (h : (s.slotAt slot).present = false) : effectOf i s = .error (.raise .noList) := by
  simp only [List.mem_cons, List.not_mem_nil, or_false] at hi
  obtain rfl | rfl | rfl | rfl | rfl | rfl | rfl := hi
  · exact bind_of_error (listOf_absent h)
  · exact bind_of_error (liveListOf_absent h)
  · exact bind_of_error (listOf_absent h)
  · exact bind_of_error (listOf_absent h)
  · exact bind_of_error (liveListOf_absent h)
  · exact bind_of_error (liveListOf_absent h)
  · exact bind_of_error (liveListOf_absent h)

theorem exec_absent {i : Instr} {s : State} {slot : SlotIndex}
    (hi : i ∈ [Instr.append slot, .popfront slot, .size slot, .total slot, .encode slot, .decode slot,
      .serialize slot])
    (h : (s.slotAt slot).present = false) : exec i s = .next { s with status := 2 } :=
  exec_of_raise (effectOf_absent hi h)

/-- Settles O32: every one of these commands takes its list first, and DESTROY leaves none in the slot. -/
theorem absentSlotRaisesNoList : Obligations.AbsentSlotRaisesNoList := by
  refine fun s slot i hi => ⟨exec_absent hi, fun t hs h => exec_absent hi ?_⟩
  rw [slotAt_of_exec_destroy hs h]
  rfl

/-! ### APPEND and POPFRONT -/

theorem appendEffect_full {s : State} {slot : SlotIndex} {runs : List Word} (h : s.HasList slot runs)
    (hfull : s.params.maxRuns < runs.length + 1) : appendEffect slot s = .error (.raise .allocationFailure) :=
  (bind_of_ok (listOf_of h)).trans (bind_of_error (check_false _ (Nat.not_le.mpr hfull)))

theorem appendEffect_of {s : State} {slot : SlotIndex} {runs : List Word} (h : s.HasList slot runs)
    (hroom : runs.length + 1 ≤ s.params.maxRuns) :
    appendEffect slot s =
      .ok { slot := some { present := true, runs := runs ++ [s.argA] }, bytes := none, results := none } :=
  (bind_of_ok (listOf_of h)).trans (bind_of_ok (check_true _ hroom))

/-- Settles O33, by the contents of the slot and the room in it. -/
theorem appendAddsOneRun : Obligations.AppendAddsOneRun := fun s slot =>
  ⟨exec_absent (by simp),
   fun _ h hfull => exec_of_raise (i := .append slot) (appendEffect_full h hfull),
   fun _ h hroom => exec_of_ok (i := .append slot) (appendEffect_of h hroom)⟩

theorem popfrontEffect_drained {s : State} {slot : SlotIndex} (h : s.HasList slot []) :
    popfrontEffect slot s = .error (.raise .listEmpty) :=
  bind_of_error (liveListOf_drained (by rw [h]) (by rw [h]))

theorem popfrontEffect_of {s : State} {slot : SlotIndex} {v : Word} {rest : List Word}
    (h : s.HasList slot (v :: rest)) :
    popfrontEffect slot s =
      .ok { slot := some { present := true, runs := rest }, bytes := none, results := some (v, 0) } :=
  bind_of_ok (liveListOf_of h (List.cons_ne_nil v rest))

/-- Settles O34, by the contents of the slot. -/
theorem popfrontReturnsTheFirstRun : Obligations.PopfrontReturnsTheFirstRun := fun s slot =>
  ⟨exec_absent (by simp),
   fun h => exec_of_raise (i := .popfront slot) (popfrontEffect_drained h),
   fun _ _ h => exec_of_ok (i := .popfront slot) (popfrontEffect_of h)⟩

/-! ### SIZE and TOTAL -/

theorem sizeEffect_of {s : State} {slot : SlotIndex} {runs : List Word} (h : s.HasList slot runs) :
    sizeEffect slot s =
      .ok { slot := none, bytes := none, results := some (BitVec.ofNat 64 runs.length, 0) } :=
  bind_of_ok (listOf_of h)

theorem totalEffect_of {s : State} {slot : SlotIndex} {runs : List Word} (h : s.HasList slot runs) :
    totalEffect slot s =
      .ok { slot := none, bytes := none,
            results := some (BitVec.ofNat 64 (totalBits runs % 2 ^ 64), BitVec.ofNat 64 (totalBits runs / 2 ^ 64)) } :=
  bind_of_ok (listOf_of h)

/-- R31 with the largest legal MAX_RUNS (R7). -/
theorem State.Inv.runs_length_le {s : State} (hs : s.Inv) {slot : SlotIndex} {runs : List Word}
    (h : s.HasList slot runs) : runs.length ≤ 2 ^ 32 := by
  obtain ⟨⟨-, ⟨-, hmax⟩, -⟩, hslots, -, -⟩ := hs
  have hlen := (hslots.slotAt_ok slot).1
  rw [h] at hlen
  exact hlen.trans hmax

/-- Settles O35, by the contents of the slot; MAX_RUNS bounds the number of runs. -/
theorem sizeReturnsTheRunCount : Obligations.SizeReturnsTheRunCount := by
  refine fun s slot => ⟨exec_absent (by simp), fun _ h => exec_of_ok (i := .size slot) (sizeEffect_of h),
    fun runs hs _ h => ?_⟩
  have hlen := hs.runs_length_le h
  exact (BitVec.toNat_ofNat _ _).trans (Nat.mod_eq_of_lt (by omega))

/-- Two words hold every number below 2^128. -/
theorem ofNat_words_toNat {n : Nat} (h : n < 2 ^ 128) :
    (BitVec.ofNat 64 (n / 2 ^ 64)).toNat * 2 ^ 64 + (BitVec.ofNat 64 (n % 2 ^ 64)).toNat = n := by
  rw [BitVec.toNat_ofNat, BitVec.toNat_ofNat]
  omega

/-- Settles O36, by the contents of the slot; the total is below 2^96 (R33), so the two words hold it. -/
theorem totalReturnsTheExactSum : Obligations.TotalReturnsTheExactSum := by
  refine fun s slot => ⟨exec_absent (by simp), fun runs h =>
    ⟨BitVec.ofNat 64 (totalBits runs % 2 ^ 64), BitVec.ofNat 64 (totalBits runs / 2 ^ 64),
      exec_of_ok (i := .total slot) (totalEffect_of h), ?_, fun hs _ => ?_⟩⟩
  · exact (BitVec.toNat_ofNat _ _).trans (Nat.mod_mod _ _)
  · have htotal := slotTotalIsBelow2Pow96 s slot hs
    rw [h] at htotal
    exact ofNat_words_toNat (htotal.trans (by decide))

end Sys2Proof.Machine
end

section
/-! PROOFS. Bytes from bits and back (00_scope.md R9, R10): packing a bit sequence (41_bitstream.md R142). -/

namespace Sys2Proof.Machine

/-- The last bit of a bit string is the parity of its number. -/
theorem bitsOfNat_succ_concat (n v : Nat) : bitsOfNat (n + 1) v = bitsOfNat n (v / 2) ++ [v.testBit 0] := by
  induction n with
  | zero => rfl
  | succ n ih => rw [bitsOfNat, ih, bitsOfNat, Nat.testBit_succ, List.cons_append]

/-- Writing out the number that a bit string spells gives the bit string back. -/
theorem bitsOfNat_natOfBits (q : List Bool) : bitsOfNat q.length (natOfBits q) = q := by
  induction q using List.reverseRecOn with
  | nil => rfl
  | append_singleton q b ih =>
    have hvalue : natOfBits (q ++ [b]) = 2 * natOfBits q + b.toNat := by simp [natOfBits]
    have hhalf : (2 * natOfBits q + b.toNat) / 2 = natOfBits q := by
      have := b.toNat_lt
      omega
    have hlast : (2 * natOfBits q + b.toNat).testBit 0 = b := by cases b <;> simp
    rw [List.length_append, List.length_singleton, hvalue, bitsOfNat_succ_concat, hhalf, hlast, ih]

theorem bitsOfNat_mod (n v : Nat) : bitsOfNat n (v % 2 ^ n) = bitsOfNat n v := by
  have h := bitsOfNat_natOfBits (bitsOfNat n v)
  rwa [natOfBits_bitsOfNat, bitsOfNat_length] at h

/-- The bits of a packed byte: the first 8 of the sequence, 0 where it has ended. -/
theorem byteBits_byteOfBits (q : List Bool) : byteBits (byteOfBits q) = (q ++ List.replicate 8 false).take 8 := by
  have h := bitsOfNat_natOfBits ((q ++ List.replicate 8 false).take 8)
  rw [List.length_take_of_le (by simp)] at h
  rw [byteBits, byteOfBits, BitVec.toNat_ofNat, bitsOfNat_mod, h]

theorem byteBits_byteOfBits_getElem? (q : List Bool) {j : Nat} (h : j < 8) :
    (byteBits (byteOfBits q))[j]? = some (q.getD j false) := by
  rw [byteBits_byteOfBits, List.getElem?_take_of_lt h, List.getD_eq_getElem?_getD]
  obtain hj | hj := Nat.lt_or_ge j q.length
  · rw [List.getElem?_append_left hj]
    simp [hj]
  · rw [List.getElem?_append_right hj, List.getElem?_replicate_of_lt (by omega), List.getElem?_eq_none hj]
    rfl

/-- Stream bit j of the packed bytes is bit j of the sequence, 0 where it has ended, however long it is. -/
theorem streamBits_pack_getElem? (q : List Bool) (n : Nat) {j : Nat} (h : j < 8 * n) :
    (streamBits (pack q n))[j]? = some (q.getD j false) := by
  induction n generalizing q j with
  | zero => omega
  | succ n ih =>
    rw [pack_succ, streamBits_cons]
    obtain hj | hj := Nat.lt_or_ge j 8
    · rw [List.getElem?_append_left (by simpa using hj), byteBits_byteOfBits_getElem? q hj]
    · obtain ⟨k, rfl⟩ := Nat.exists_eq_add_of_le hj
      rw [List.getElem?_append_right (by simp), byteBits_length, Nat.add_sub_cancel_left, ih _ (by omega),
        List.getD_eq_getElem?_getD, List.getElem?_drop, List.getD_eq_getElem?_getD]

/-- Settles O45: the bits of the packed bytes, read in stream order (R10). -/
theorem packPlacesEveryBit : Obligations.PackPlacesEveryBit := fun q n _ =>
  ⟨pack_length q n, fun j hj => by rw [← streamBits_getElem?, streamBits_pack_getElem? q n hj]⟩

theorem byteOfBits_byteBits_append (b : Byte) (q : List Bool) : byteOfBits (byteBits b ++ q) = b := by
  rw [byteOfBits, List.append_assoc, List.take_left' (byteBits_length b), byteBits, natOfBits_bitsOfNat,
    Nat.mod_eq_of_lt b.isLt, BitVec.ofNat_toNat, BitVec.setWidth_eq]

/-- Packing the stream bits of a byte sequence gives the bytes back. -/
theorem pack_streamBits (bs : List Byte) : pack (streamBits bs) bs.length = bs := by
  induction bs with
  | nil => rfl
  | cons b bs ih =>
    rw [streamBits_cons, List.length_cons, pack_succ, byteOfBits_byteBits_append,
      List.drop_left' (byteBits_length b), ih]

end Sys2Proof.Machine
end

section
/-! PROOFS. The bit sequence of a list (41_bitstream.md R141), and what one bit of the encoder adds to it
(R132, R133). -/

namespace Sys2Proof.Machine

/-- The polarity flips from each run to the next (00_scope.md R13). -/
theorem polarityAt_succ (i : Nat) : polarityAt (i + 1) = !polarityAt i := by
  unfold polarityAt
  rw [← decide_not, decide_eq_decide]
  omega

theorem expandFrom_append (k : Nat) (as bs : List Word) :
    expandFrom (polarityAt k) (as ++ bs) =
      expandFrom (polarityAt k) as ++ expandFrom (polarityAt (k + as.length)) bs := by
  induction as generalizing k with
  | nil => rfl
  | cons r as ih =>
    rw [List.cons_append, expandFrom, expandFrom, ← polarityAt_succ, ih, List.append_assoc, List.length_cons,
      Nat.add_right_comm, Nat.add_assoc]

/-- The runs after the first `as.length` start with the polarity of that index. -/
theorem runBits_append (as bs : List Word) :
    runBits (as ++ bs) = runBits as ++ expandFrom (polarityAt as.length) bs := by
  simpa [runBits, polarityAt] using expandFrom_append 0 as bs

theorem runBits_concat (runs : List Word) (r : Word) :
    runBits (runs ++ [r]) = runBits runs ++ List.replicate r.toNat (polarityAt runs.length) := by
  simp [runBits_append, expandFrom]

theorem expandFrom_eq_flatMap (k : Nat) (runs : List Word) :
    expandFrom (polarityAt k) runs =
      (runs.zipIdx k).flatMap (fun x => List.replicate x.1.toNat (decide (x.2 % 2 = 1))) := by
  induction runs generalizing k with
  | nil => rfl
  | cons r runs ih =>
    rw [expandFrom, ← polarityAt_succ, ih, List.zipIdx_cons, List.flatMap_cons]
    rfl

theorem expandFrom_length (p : Bool) (runs : List Word) : (expandFrom p runs).length = totalBits runs := by
  induction runs generalizing p with
  | nil => rfl
  | cons r runs ih =>
    rw [expandFrom, List.length_append, List.length_replicate, ih]
    rfl

@[simp] theorem runBits_length (runs : List Word) : (runBits runs).length = totalBits runs :=
  expandFrom_length false runs

/-- Settles O44, run by run: the polarity that flips from run to run is that of the run's index. -/
theorem runExpansion : Obligations.RunExpansion := fun runs =>
  ⟨expandFrom_eq_flatMap 0 runs, runBits_length runs⟩

/-- Settles O41, by the rule of `encodeBit` on a list whose tail is written out. -/
theorem encodeBitRule : Obligations.EncodeBitRule := by
  intro init tail b
  have hfull : tail < maxRun ↔ tail.toNat < 2 ^ 64 - 1 := by
    rw [BitVec.lt_def, maxRun, BitVec.toNat_allOnes]
  have hgrow : tail + 1 = BitVec.ofNat 64 (tail.toNat + 1) := BitVec.eq_of_toNat_eq (by simp)
  simp only [encodeBit, activePolarity, polarityAt, List.getLastD_concat, List.dropLast_concat, hfull, hgrow]

theorem toNat_ofNat_word {n : Nat} (h : n < 2 ^ 64) : (BitVec.ofNat 64 n).toNat = n :=
  (BitVec.toNat_ofNat n 64).trans (Nat.mod_eq_of_lt h)

/-- Every rule of R132 and the split of R133 add the bit, and nothing else, to the bit sequence. -/
theorem runBits_encodeBit {runs : List Word} (h : runs ≠ []) (b : Bool) :
    runBits (encodeBit runs b) = runBits runs ++ [b] := by
  obtain ⟨init, tail, rfl⟩ := (List.eq_nil_or_concat' runs).resolve_left h
  rw [encodeBitRule, List.length_append, List.length_singleton, Nat.add_sub_cancel, ← polarityAt]
  split
  next hb =>
    split
    next hroom => -- the tail has room for one more bit
      rw [runBits_concat, runBits_concat, toNat_ofNat_word (by omega), List.replicate_succ', ← hb, List.append_assoc]
    next => -- the tail is full: the run of 0 flips the polarity back
      rw [runBits_append, hb]
      simp [expandFrom, polarityAt_succ]
  next hb => -- the other polarity is that of the new run
    have hflip : polarityAt (init.length + 1) = b := by
      rw [polarityAt_succ, Bool.eq_not_of_ne hb]
    rw [runBits_concat (init ++ [tail]), List.length_append, List.length_singleton, hflip]
    rfl

/-- The bit sequence of the encoded list is the one before and then the input's bits (R136). -/
theorem runBits_encodeBits {runs : List Word} (h : runs ≠ []) (q : List Bool) :
    runBits (encodeBits runs q) = runBits runs ++ q := by
  induction q generalizing runs with
  | nil => exact (List.append_nil _).symm
  | cons b q ih =>
    change runBits (encodeBits (encodeBit runs b) q) = runBits runs ++ b :: q
    rw [ih (encodeBit_ne_nil runs b), runBits_encodeBit h, List.append_assoc, List.singleton_append]

theorem encodeBits_append (runs : List Word) (p q : List Bool) :
    encodeBits runs (p ++ q) = encodeBits (encodeBits runs p) q := List.foldl_append

end Sys2Proof.Machine
end

section
/-! PROOFS. ENCODE (41_bitstream.md R130 - R136): its effect from the contents of its slot and its source window, and
what follows for the list. -/

namespace Sys2Proof.Machine

/-! ### The source window -/

theorem sourceBytes_of {s : State} {bs : List Byte} (h : s.Source bs) : sourceBytes s = .ok bs := by
  obtain ⟨hfits, hlen, hbytes⟩ := h
  have hread : s.buf.readBytes s.src s.srcLen = .ok bs := (Memory.readBytes_ok _ _ _ _).mpr ⟨hlen, hbytes⟩
  exact (bind_of_ok (check_true _ hfits)).trans (by rw [hread])

theorem sourceBytes_outside {s : State} (h : ¬s.SrcOk) : sourceBytes s = .error (.raise .badAddress) :=
  bind_of_error (check_false _ h)

/-- A read that succeeds has found every byte of the window written. -/
theorem State.written_of_readBytes {s : State} {a n : Nat} {bs : List Byte} (h : s.buf.readBytes a n = .ok bs) :
    s.Written a n := by
  obtain ⟨rfl, hbytes⟩ := (Memory.readBytes_ok _ _ _ _).mp h
  intro k hk
  simp [hbytes k hk, hk]

/-- R44: a window with an unwritten byte stops the model, and the fault names such a byte. -/
theorem sourceBytes_not_written {s : State} (hfits : s.SrcOk) (h : ¬s.Written s.src s.srcLen) :
    ∃ a, sourceBytes s = .error (.fault (.unwrittenByte a)) ∧ s.src ≤ a ∧ a < s.src + s.srcLen ∧
      s.buf.read a = none := by
  obtain ⟨bs, -, -, hread⟩ | ⟨-, hout⟩ | ⟨a, hfault, -, hread⟩ := sourceBytes_cases s
  · exact absurd (State.written_of_readBytes hread) h
  · exact absurd hfits hout
  · exact ⟨a, hfault, Memory.readBytes_error _ _ _ _ hread⟩

/-! ### The command -/

theorem liveListOf_nil {s : State} {slot : SlotIndex} (h : s.HasList slot []) :
    liveListOf s slot = .error (.raise .listEmpty) :=
  liveListOf_drained (by rw [h]) (by rw [h])

section
variable {s : State} {slot : SlotIndex} {runs : List Word} (hlist : s.HasList slot runs) (hne : runs ≠ [])
include hlist hne

theorem encodeEffect_source_halt {halt : Halt} (h : sourceBytes s = .error halt) :
    encodeEffect slot s = .error halt :=
  (bind_of_ok (liveListOf_of hlist hne)).trans (bind_of_error h)

theorem encodeEffect_full {input : List Byte} (hsrc : s.Source input)
    (hfull : s.params.maxRuns < (encodeBits runs (streamBits input)).length) :
    encodeEffect slot s = .error (.raise .allocationFailure) :=
  (bind_of_ok (liveListOf_of hlist hne)).trans <|
    (bind_of_ok (sourceBytes_of hsrc)).trans (bind_of_error (check_false _ (Nat.not_le.mpr hfull)))

theorem encodeEffect_of {input : List Byte} (hsrc : s.Source input)
    (hroom : (encodeBits runs (streamBits input)).length ≤ s.params.maxRuns) :
    encodeEffect slot s =
      .ok { slot := some { present := true, runs := encodeBits runs (streamBits input) }, bytes := none,
            results := none } :=
  (bind_of_ok (liveListOf_of hlist hne)).trans <|
    (bind_of_ok (sourceBytes_of hsrc)).trans (bind_of_ok (check_true _ hroom))

end

/-- Settles O40, by the contents of the slot, the source window and the room in the slot. -/
theorem encodeAppendsTheWindowBits : Obligations.EncodeAppendsTheWindowBits := by
  refine fun s slot => ⟨exec_absent (by simp),
    fun h => exec_of_raise (i := .encode slot) (bind_of_error (liveListOf_nil h)),
    fun runs hlist hne => ⟨fun hout => ?_, fun hfits hunwritten => ?_, fun input hsrc =>
      ⟨fun hfull => ?_, fun hroom => ?_⟩⟩⟩
  · exact exec_of_raise (i := .encode slot)
      (encodeEffect_source_halt hlist hne (sourceBytes_outside (Nat.not_le.mpr hout)))
  · obtain ⟨a, hfault, ha⟩ := sourceBytes_not_written hfits hunwritten
    exact ⟨a, runCommand_fault (encodeEffect_source_halt hlist hne hfault), ha⟩
  · exact exec_of_raise (i := .encode slot) (encodeEffect_full hlist hne hsrc hfull)
  · exact exec_of_ok (i := .encode slot) (encodeEffect_of hlist hne hsrc hroom)

/-- The next state of an ENCODE that succeeds. -/
theorem exec_encode_success {s t : State} {slot : SlotIndex} {input : List Byte} (hsrc : s.Source input)
    (h : exec (.encode slot) s = .next t) (ht : t.status = 0) :
    (s.slotAt slot).runs ≠ [] ∧
    t = { s with
      slots := s.slots.set slot.toNat
        { present := true, runs := encodeBits (s.slotAt slot).runs (streamBits input) }
      status := 0 } := by
  obtain ⟨e, he, rfl⟩ := exec_next_success h ht
  obtain ⟨runs, bs, hlist, hne, hbs, -, rfl⟩ := encodeEffect_ok he
  obtain rfl : input = bs := Except.ok.inj ((sourceBytes_of hsrc).symm.trans hbs)
  rw [hlist]
  exact ⟨hne, rfl⟩

/-- The list that an ENCODE that succeeds leaves in its slot. -/
theorem slotAt_of_exec_encode {s t : State} {slot : SlotIndex} {input : List Byte} (hsrc : s.Source input)
    (h : exec (.encode slot) s = .next t) (ht : t.status = 0) (hslot : s.HasSlot slot) :
    t.slotAt slot = { present := true, runs := encodeBits (s.slotAt slot).runs (streamBits input) } := by
  obtain ⟨-, rfl⟩ := exec_encode_success hsrc h ht
  exact s.slotAt_setSlot_same slot _ hslot

/-- Settles O43: every bit of the input adds itself to the bit sequence, and a new list has none. -/
theorem encodePreservesTheBitSequence : Obligations.EncodePreservesTheBitSequence := by
  intro s t slot input hslot hsrc h ht
  have hbits : runBits (t.slotAt slot).runs = runBits (s.slotAt slot).runs ++ streamBits input := by
    rw [slotAt_of_exec_encode hsrc h ht hslot]
    exact runBits_encodeBits (exec_encode_success hsrc h ht).1 _
  refine ⟨hbits, fun hnew => ?_⟩
  rw [hbits, hnew]
  rfl

/-- Settles O42: the encoder's loop over A ++ B is its loop over A and then over B, and ENCODE leaves BUF as it is. -/
theorem encodeIsResumable : Obligations.EncodeIsResumable := by
  intro s t1 t2 t3 slot a n a' n' a'' n'' A B hA hB hAB h1 ht1 h2 ht2 h3 ht3 hslot
  obtain ⟨-, ht1eq⟩ := exec_encode_success hA h1 ht1
  have hB1 : State.Source { t1 with argA := a', argB := n' } B := by rw [ht1eq]; exact hB
  have hslot1 : t1.HasSlot slot := by rw [ht1eq]; simpa using hslot
  have hlist1 : t1.slotAt slot = { present := true, runs := encodeBits (s.slotAt slot).runs (streamBits A) } :=
    (slotAt_of_exec_encode hA h1 ht1 hslot :)
  have hlist2 : t2.slotAt slot = { present := true, runs := encodeBits (t1.slotAt slot).runs (streamBits B) } :=
    (slotAt_of_exec_encode hB1 h2 ht2 hslot1 :)
  have hlist3 : t3.slotAt slot = { present := true, runs := encodeBits (s.slotAt slot).runs (streamBits (A ++ B)) } :=
    (slotAt_of_exec_encode hAB h3 ht3 hslot :)
  rw [hlist2, hlist1, hlist3, streamBits_append, encodeBits_append]

end Sys2Proof.Machine
end

section
/-! PROOFS. DECODE (41_bitstream.md R140 - R145): its effect from the contents of its slot and its destination window,
and the round trip with ENCODE. -/

namespace Sys2Proof.Machine

section
variable {s : State} {n : Nat}

theorem checkDestination_outside (h : ¬s.DstOk) : checkDestination s n = .error (.raise .badAddress) :=
  bind_of_error (check_false _ h)

theorem checkDestination_full (hfits : s.DstOk) (h : s.dstCap < n) :
    checkDestination s n = .error (.raise .allocationFailure) :=
  (bind_of_ok (check_true _ hfits)).trans (check_false _ (Nat.not_le.mpr h))

theorem checkDestination_of (hfits : s.DstOk) (h : n ≤ s.dstCap) : checkDestination s n = .ok () :=
  (bind_of_ok (check_true _ hfits)).trans (check_true _ h)

end

section
variable {s : State} {slot : SlotIndex} {runs : List Word} (hlist : s.HasList slot runs) (hne : runs ≠ [])
include hlist hne

theorem decodeEffect_destination_halt {halt : Halt}
    (h : checkDestination s (ceilDiv (totalBits runs) 8) = .error halt) : decodeEffect slot s = .error halt :=
  (bind_of_ok (liveListOf_of hlist hne)).trans (bind_of_error h)

theorem decodeEffect_of (hfits : s.DstOk) (hcap : ceilDiv (totalBits runs) 8 ≤ s.dstCap) :
    decodeEffect slot s =
      .ok { slot := some { present := true, runs := [] },
            bytes := some (pack (runBits runs) (ceilDiv (totalBits runs) 8)),
            results := some (BitVec.ofNat 64 (ceilDiv (totalBits runs) 8), BitVec.ofNat 64 (totalBits runs)) } :=
  (bind_of_ok (liveListOf_of hlist hne)).trans (bind_of_ok (checkDestination_of hfits hcap))

/-- The next state of a DECODE that succeeds: the packed bits stand at DST, and the rest of BUF is as before. -/
theorem exec_decode_of (hfits : s.DstOk) (hcap : ceilDiv (totalBits runs) 8 ≤ s.dstCap) :
    ∃ m : Memory,
      exec (.decode slot) s =
        .next { s with
          slots := s.slots.set slot.toNat { present := true, runs := [] }
          buf := m, res0 := BitVec.ofNat 64 (ceilDiv (totalBits runs) 8), res1 := BitVec.ofNat 64 (totalBits runs)
          status := 0 } ∧
      (∀ k, k < ceilDiv (totalBits runs) 8 →
        m.read (s.dst + k) = (pack (runBits runs) (ceilDiv (totalBits runs) 8))[k]?) ∧
      (∀ a, (a < s.dst ∨ s.dst + ceilDiv (totalBits runs) 8 ≤ a) → m.read a = s.buf.read a) := by
  have hlen := pack_length (runBits runs) (ceilDiv (totalBits runs) 8)
  exact ⟨_, exec_of_ok (i := .decode slot) (decodeEffect_of hlist hne hfits hcap),
    fun k hk => Memory.read_writeBytes_inside _ _ _ k (hlen.symm ▸ hk),
    fun a ha => Memory.read_writeBytes_outside _ _ _ a (hlen.symm ▸ ha)⟩

end

/-- BUF_BYTES is at most 2^32 (R7), so the bits that fit in a destination window are at most 2^35. -/
theorem State.Inv.bits_le {s : State} (hs : s.Inv) (hfits : s.DstOk) {t : Nat} (hcap : ceilDiv t 8 ≤ s.dstCap) :
    t ≤ 2 ^ 35 := by
  obtain ⟨⟨-, -, -, hbuf⟩, -⟩ := hs
  unfold ceilDiv at hcap
  omega

/-- Settles O46, by the contents of the slot and the destination window. -/
theorem decodeWritesTheBits : Obligations.DecodeWritesTheBits := by
  refine fun s slot => ⟨exec_absent (by simp),
    fun h => exec_of_raise (i := .decode slot) (bind_of_error (liveListOf_nil h)),
    fun runs hlist hne => ⟨fun hout => ?_, fun hfits hfull => ?_, fun hfits hcap => ?_⟩⟩
  · exact exec_of_raise (i := .decode slot)
      (decodeEffect_destination_halt hlist hne (checkDestination_outside (Nat.not_le.mpr hout)))
  · exact exec_of_raise (i := .decode slot)
      (decodeEffect_destination_halt hlist hne (checkDestination_full hfits hfull))
  · obtain ⟨m, hexec, hin, hout⟩ := exec_decode_of hlist hne hfits hcap
    refine ⟨m, hexec, hin, hout, fun hs => ?_⟩
    have hbits := hs.bits_le hfits hcap
    exact ⟨toNat_ofNat_word (by omega), toNat_ofNat_word (by omega)⟩

/-- The bytes that hold the stream of `n` bytes are `n`. -/
theorem ceilDiv_mul_eight (n : Nat) : ceilDiv (8 * n) 8 = n := by
  unfold ceilDiv
  omega

/-- Settles O47: the new list's bits are the stream bits of B, so DECODE writes the bytes that they pack to. -/
theorem encodeDecodeRoundTrip : Obligations.EncodeDecodeRoundTrip := by
  intro s t slot B dst cap hs hslot hnew hsrc h ht hfits hcap
  have hne : encodeBits [0] (streamBits B) ≠ [] := encodeBits_ne_nil _ (List.cons_ne_nil 0 [])
  have hbits : runBits (encodeBits [0] (streamBits B)) = streamBits B := runBits_encodeBits (List.cons_ne_nil 0 []) _
  have htotal : totalBits (encodeBits [0] (streamBits B)) = 8 * B.length := by
    rw [← runBits_length, hbits, streamBits_length]
  have hlist : t.HasList slot (encodeBits [0] (streamBits B)) := by
    rw [State.HasList, slotAt_of_exec_encode hsrc h ht hslot, hnew]
  have hparams : t.params = s.params := (exec_keepsInputsAndParams _ s t h).2
  have hdst : State.DstOk { t with argC := dst, argD := cap } := by rwa [← hparams] at hfits
  obtain ⟨m, hexec, hin, -⟩ := exec_decode_of (s := { t with argC := dst, argD := cap }) hlist hne hdst
    (by rwa [htotal, ceilDiv_mul_eight])
  rw [htotal, ceilDiv_mul_eight, hbits, pack_streamBits] at hin
  rw [htotal, ceilDiv_mul_eight] at hexec
  have hsmall : 8 * B.length ≤ 2 ^ 35 :=
    State.Inv.bits_le (s := { t with argC := dst, argD := cap }) ((exec_keeps_inv hs h).congr rfl rfl rfl rfl) hdst
      (by rwa [ceilDiv_mul_eight])
  exact ⟨_, hexec, rfl, hin, toNat_ofNat_word (by omega), toNat_ofNat_word (by omega)⟩

end Sys2Proof.Machine
end

section
/-! PROOFS. The pairs of a count (42_wire_codec.md R161): its maximal stretches of equal bits. -/

namespace Sys2Proof.Machine

theorem wordBits_eq_map (w : Word) : wordBits w = (List.range 64).map (fun k => w.getLsbD (63 - k)) := by
  refine List.ext_getElem? fun k => ?_
  obtain hk | hk := Nat.lt_or_ge k 64
  · rw [wordBits, bitsOfNat_getElem? 64 _ k hk, BitVec.testBit_toNat]
    simp [hk]
  · rw [List.getElem?_eq_none (by simpa using hk), List.getElem?_eq_none (by simpa using hk)]

theorem head?_stretches (q : List Bool) : (stretches q).head?.map Pair.bit = q.head? := by
  cases q with
  | nil => rfl
  | cons b rest =>
    obtain ⟨p, ps, -, rfl, h⟩ | h := stretches_cons_cases b rest <;> rw [h] <;> rfl

/-- The stretches are maximal: neighbours have different bits. -/
theorem isChain_stretches (q : List Bool) : (stretches q).IsChain (fun p r => p.bit ≠ r.bit) := by
  refine (List.isChain_map Pair.bit).mp ?_
  induction q with
  | nil => exact .nil
  | cons b rest ih =>
    rw [stretches]
    split
    next => exact .singleton _
    next p ps h =>
      rw [h] at ih
      split
      next => exact ih
      next hb => exact .cons_cons (Ne.symm hb) ih

/-- Settles O50: stretches stand for the bits they group, are not empty, and differ from their neighbours. -/
theorem pairSplit : Obligations.PairSplit := by
  refine fun c => ⟨(pairBits_pairs c).trans (wordBits_eq_map c), pairs_length_sum c,
    fun p hp => ⟨one_le_length_of_mem_pairs hp, length_le_64_of_mem_pairs hp⟩, fun k p r hp hr => ?_, ?_⟩
  · obtain ⟨hk, rfl⟩ := List.getElem?_eq_some_iff.mp hp
    obtain ⟨hk1, rfl⟩ := List.getElem?_eq_some_iff.mp hr
    exact (isChain_stretches (wordBits c)).getElem k hk1
  · rw [← List.head?_eq_getElem?, pairs, head?_stretches, wordBits_eq_map]
    rfl

end Sys2Proof.Machine
end

section
/-! PROOFS. The bytes of the wire form (42_wire_codec.md R162, R163) and the byte-level view of the serializer (R165). -/

namespace Sys2Proof.Machine

/-! ### The padded header stream -/

/-- The padding nibble (30_encoding.md R86). -/
def padNibble : List Bool := [false, false, false, false]

theorem flatMap_header_length_mod (ps : List Pair) : (ps.flatMap header).length % 4 = 0 := by
  induction ps with
  | nil => rfl
  | cons p ps ih =>
    rw [List.flatMap_cons, List.length_append, header_length]
    split <;> omega

theorem headers_eq_flatMap_header (runs : List Word) : headers runs = (runs.flatMap pairs).flatMap header :=
  List.flatMap_assoc.symm

theorem headers_length_mod (runs : List Word) : (headers runs).length % 4 = 0 :=
  headers_eq_flatMap_header runs ▸ flatMap_header_length_mod _

@[simp] theorem headers_append (as bs : List Word) : headers (as ++ bs) = headers as ++ headers bs :=
  List.flatMap_append

/-- Packing a whole number of bytes loses nothing. -/
theorem streamBits_pack {q : List Bool} {n : Nat} (h : q.length = 8 * n) : streamBits (pack q n) = q := by
  refine List.ext_getElem? fun j => ?_
  obtain hj | hj := Nat.lt_or_ge j (8 * n)
  · rw [streamBits_pack_getElem? q n hj, List.getD_eq_getElem?_getD, List.getElem?_eq_getElem (h ▸ hj)]
    rfl
  · rw [List.getElem?_eq_none (by simpa [streamBits_length] using hj), List.getElem?_eq_none (h ▸ hj)]

theorem streamBits_wireBytes (runs : List Word) : streamBits (wireBytes runs) = padTail (headers runs) := by
  refine streamBits_pack ?_
  have := headers_length_mod runs
  rw [padTail_length]
  split <;> omega

theorem padTail_of_nibble {hb : List Bool} (h : hb.length % 8 = 4) : padTail hb = hb ++ padNibble := if_pos h

theorem padTail_of_byte {hb : List Bool} (h : hb.length % 8 = 0) : padTail hb = hb := if_neg (by omega)

/-- The header bits fill the wire form up to the padding nibble. -/
theorem wireBytes_length (runs : List Word) : 8 * (wireBytes runs).length =
    (headers runs).length + if (headers runs).length % 8 = 4 then 4 else 0 := by
  rw [← streamBits_length, streamBits_wireBytes, padTail_length]

/-- Settles O51: a header is one or two nibbles, so one nibble at most is missing to a whole byte. -/
theorem tailPadding : Obligations.TailPadding := by
  intro runs
  have hmod := headers_length_mod runs
  have hlen := wireBytes_length runs
  refine ⟨?_, fun h4 => ?_, fun h4 => ?_⟩
  · split at hlen <;> omega
  · rw [streamBits_wireBytes, padTail_of_nibble h4, padNibble]
  · have h0 : (headers runs).length % 8 = 0 := by omega
    exact ⟨h0, by rw [streamBits_wireBytes, padTail_of_byte h0]⟩

/-! ### Nibbles of bytes -/

theorem natOfBits_lt (q : List Bool) : natOfBits q < 2 ^ q.length := by
  have h := natOfBits_bitsOfNat q.length (natOfBits q)
  rw [bitsOfNat_natOfBits] at h
  exact h ▸ Nat.mod_lt _ (Nat.two_pow_pos _)

theorem byteBits_natOfBits {q : List Bool} (h : q.length = 8) : byteBits (BitVec.ofNat 8 (natOfBits q)) = q := by
  have hq := bitsOfNat_natOfBits q
  rw [h] at hq
  rw [byteBits, BitVec.toNat_ofNat, bitsOfNat_mod, hq]

theorem ofNat_natOfBits_byteBits (b : Byte) : BitVec.ofNat 8 (natOfBits (byteBits b)) = b := by
  rw [byteBits, natOfBits_bitsOfNat, Nat.mod_eq_of_lt b.isLt, BitVec.ofNat_toNat, BitVec.setWidth_eq]

theorem streamBits_injective {as bs : List Byte} (h : streamBits as = streamBits bs) : as = bs := by
  have hlen : as.length = bs.length := by
    have := congrArg List.length h
    rw [streamBits_length, streamBits_length] at this
    omega
  rw [← pack_streamBits as, h, hlen, pack_streamBits]

/-- A nibble as the high half of a byte. -/
theorem natOfBits_append_padNibble (x : List Bool) : natOfBits (x ++ padNibble) = natOfBits x * 16 := by
  rw [natOfBits_append]
  rfl

section
variable {bs : List Byte} {q x : List Bool} (hx : x.length = 4)
include hx

/-- A nibble that starts a new byte. -/
theorem streamBits_highNibble :
    streamBits (bs ++ [BitVec.ofNat 8 (natOfBits x * 16)]) = streamBits bs ++ x ++ padNibble := by
  rw [← natOfBits_append_padNibble, streamBits_append, streamBits_cons, byteBits_natOfBits (by simp [hx, padNibble]),
    streamBits_nil, List.append_nil, List.append_assoc]

/-- A nibble put into the free low half of a byte. -/
theorem or_lowNibble (a : List Bool) :
    BitVec.ofNat 8 (natOfBits (a ++ padNibble)) ||| BitVec.ofNat 8 (natOfBits x) =
      BitVec.ofNat 8 (natOfBits (a ++ x)) := by
  have hlt := natOfBits_lt x
  rw [hx] at hlt
  have hor := Nat.shiftLeft_add_eq_or_of_lt hlt (natOfBits a)
  rw [Nat.shiftLeft_eq] at hor
  rw [← BitVec.ofNat_or, natOfBits_append_padNibble, natOfBits_append, hx]
  exact congrArg _ hor.symm

/-- A nibble that ends the last byte, whose low half is free. -/
theorem streamBits_fillLow (h : streamBits bs = q ++ padNibble) :
    streamBits (Packer.fillLow bs (natOfBits x)) = q ++ x := by
  obtain rfl | ⟨init, b, rfl⟩ := List.eq_nil_or_concat' bs
  · simp [padNibble] at h
  obtain ⟨hq, hb⟩ : streamBits init ++ (byteBits b).take 4 = q ∧ (byteBits b).drop 4 = padNibble := by
    refine List.append_inj' ?_ (by simp [padNibble])
    simpa using h
  have hbyte : byteBits b = (byteBits b).take 4 ++ padNibble := by rw [← hb, List.take_append_drop]
  have hor : b ||| BitVec.ofNat 8 (natOfBits x) = BitVec.ofNat 8 (natOfBits ((byteBits b).take 4 ++ x)) := by
    rw [← or_lowNibble hx, ← hbyte, ofNat_natOfBits_byteBits]
  rw [Packer.fillLow, List.dropLast_concat, List.getLastD_concat, hor, streamBits_append, streamBits_cons,
    byteBits_natOfBits (by simp [hx]), streamBits_nil, List.append_nil, ← List.append_assoc, hq]

end

/-! ### The packing state -/

/-- What the packing state stands for: the header bits `hb` are in, and a byte that is not complete has a free low
nibble, which is 0. -/
def Packer.Holds (k : Packer) (hb : List Bool) : Prop :=
  streamBits k.bytes = hb ++ if k.complete then [] else padNibble

theorem Packer.holds_complete {bs : List Byte} {hb : List Bool} :
    Packer.Holds { bytes := bs, complete := true } hb ↔ streamBits bs = hb := by
  simp [Holds]

theorem Packer.holds_incomplete {bs : List Byte} {hb : List Bool} :
    Packer.Holds { bytes := bs, complete := false } hb ↔ streamBits bs = hb ++ padNibble := by
  simp [Holds]

/-- An extended header is two nibbles, and its number has them as its digits. -/
theorem natOfBits_header_of_four_le {p : Pair} (h : 4 ≤ p.length) : ∃ hi lo : List Bool, hi.length = 4 ∧ lo.length = 4 ∧
    header p = hi ++ lo ∧ natOfBits (header p) / 16 = natOfBits hi ∧ natOfBits (header p) % 16 = natOfBits lo := by
  have hlen : (header p).length = 8 := (header_length p).trans (if_neg (by omega))
  have hhi : ((header p).take 4).length = 4 := by simp [hlen]
  have hlo : ((header p).drop 4).length = 4 := by simp [hlen]
  have hnum : natOfBits (header p) = natOfBits ((header p).take 4) * 16 + natOfBits ((header p).drop 4) := by
    conv_lhs => rw [← List.take_append_drop 4 (header p), natOfBits_append, hlo]
    rfl
  have hlt := natOfBits_lt ((header p).drop 4)
  rw [hlo] at hlt
  exact ⟨_, _, hhi, hlo, (List.take_append_drop 4 _).symm, by omega, by omega⟩

/-- Emitting a header adds its bits (R165). -/
theorem Packer.Holds.emit {k : Packer} {hb : List Bool} (h : k.Holds hb) (p : Pair) :
    (k.emit p).Holds (hb ++ header p) := by
  obtain ⟨bs, complete⟩ := k
  unfold Packer.emit
  obtain hshort | hlong := le_or_gt p.length 3
  · have hx : (header p).length = 4 := (header_length p).trans (if_pos hshort)
    rw [if_pos hshort]
    cases complete with
    | true => exact holds_incomplete.mpr (by rw [streamBits_highNibble hx, holds_complete.mp h])
    | false => exact holds_complete.mpr (streamBits_fillLow hx (holds_incomplete.mp h))
  · have hx : (header p).length = 8 := (header_length p).trans (if_neg (by omega))
    rw [if_neg (by omega)]
    cases complete with
    | true =>
      refine holds_complete.mpr ?_
      simp [streamBits_append, byteBits_natOfBits hx, holds_complete.mp h]
    | false => -- the header straddles two bytes
      obtain ⟨hi, lo, hhi, hlo, heq, hdiv, hmod⟩ := natOfBits_header_of_four_le hlong
      refine holds_incomplete.mpr ?_
      simp only [hdiv, hmod]
      rw [streamBits_highNibble hlo, streamBits_fillLow hhi (holds_incomplete.mp h), heq, List.append_assoc hb]

theorem Packer.Holds.foldl_emit {k : Packer} {hb : List Bool} (h : k.Holds hb) (ps : List Pair) :
    (ps.foldl Packer.emit k).Holds (hb ++ ps.flatMap header) := by
  induction ps generalizing k hb with
  | nil => simpa using h
  | cons p ps ih => simpa using ih (h.emit p)

/-- The bytes are whole, so the flag tells whether the padding nibble is needed. -/
theorem Packer.Holds.streamBits_eq {k : Packer} {hb : List Bool} (h : k.Holds hb) :
    streamBits k.bytes = padTail hb := by
  obtain ⟨bs, complete⟩ := k
  have hlen := streamBits_length bs
  cases complete with
  | true =>
    rw [holds_complete] at h
    rw [h] at hlen
    exact h.trans (padTail_of_byte (by omega)).symm
  | false =>
    rw [holds_incomplete] at h
    rw [h, List.length_append, padNibble, List.length_cons] at hlen
    exact h.trans (padTail_of_nibble (by simp at hlen; omega)).symm

/-- Settles O53: the packing state holds the header bits emitted so far, and its bytes are those of the padded stream. -/
theorem packingViewsAgree : Obligations.PackingViewsAgree := by
  intro runs
  have hstart : Packer.start.Holds [] := rfl
  have hend := hstart.foldl_emit (runs.flatMap pairs)
  rw [List.nil_append, ← headers_eq_flatMap_header] at hend
  exact streamBits_injective (hend.streamBits_eq.trans (streamBits_wireBytes runs).symm)

end Sys2Proof.Machine
end

section
/-! PROOFS. SERIALIZE and DESERIALIZE (42_wire_codec.md R160, R170): their effects from the contents of the slot and the
windows. -/

namespace Sys2Proof.Machine

/-! ### SERIALIZE -/

section
variable {s : State} {slot : SlotIndex} {runs : List Word} (hlist : s.HasList slot runs) (hne : runs ≠ [])
include hlist hne

theorem serializeEffect_destination_halt {halt : Halt}
    (h : checkDestination s (wireBytes runs).length = .error halt) : serializeEffect slot s = .error halt :=
  (bind_of_ok (liveListOf_of hlist hne)).trans (bind_of_error h)

theorem serializeEffect_of (hfits : s.DstOk) (hcap : (wireBytes runs).length ≤ s.dstCap) :
    serializeEffect slot s =
      .ok { slot := none, bytes := some (wireBytes runs),
            results := some (BitVec.ofNat 64 (wireBytes runs).length, BitVec.ofNat 64 (headers runs).length) } :=
  (bind_of_ok (liveListOf_of hlist hne)).trans (bind_of_ok (checkDestination_of hfits hcap))

end

/-- Settles O54, by the contents of the slot and the destination window. -/
theorem serializeWritesTheWireForm : Obligations.SerializeWritesTheWireForm := by
  refine fun s slot => ⟨exec_absent (by simp),
    fun h => exec_of_raise (i := .serialize slot) (bind_of_error (liveListOf_nil h)),
    fun runs hlist hne => ⟨fun hout => ?_, fun hfits hfull => ?_, fun hfits hcap => ?_⟩⟩
  · exact exec_of_raise (i := .serialize slot)
      (serializeEffect_destination_halt hlist hne (checkDestination_outside (Nat.not_le.mpr hout)))
  · exact exec_of_raise (i := .serialize slot)
      (serializeEffect_destination_halt hlist hne (checkDestination_full hfits hfull))
  · exact ⟨_, exec_of_ok (i := .serialize slot) (serializeEffect_of hlist hne hfits hcap),
      Memory.read_writeBytes_inside _ _ _, Memory.read_writeBytes_outside _ _ _⟩

/-! ### DESERIALIZE -/

theorem parsed_malformed {input : List Byte} (h : parse input = none) :
    parsed input = .error (.raise .malformedInput) := by
  rw [parsed, h]

theorem parsed_of {input : List Byte} {r : List Word × Nat} (h : parse input = some r) : parsed input = .ok r := by
  rw [parsed, h]

section
variable {s : State} {input : List Byte} (hsrc : s.Source input)
include hsrc

theorem deserializeEffect_malformed (h : parse input = none) :
    deserializeEffect s = .error (.raise .malformedInput) :=
  (bind_of_ok (sourceBytes_of hsrc)).trans (bind_of_error (parsed_malformed h))

variable {counts : List Word} {used : Nat} (h : parse input = some (counts, used))
include h

theorem deserializeEffect_full (hfull : s.params.maxRuns < counts.length) :
    deserializeEffect s = .error (.raise .allocationFailure) :=
  (bind_of_ok (sourceBytes_of hsrc)).trans <|
    (bind_of_ok (parsed_of h)).trans (bind_of_error (check_false _ (Nat.not_le.mpr hfull)))

theorem deserializeEffect_of (hroom : counts.length ≤ s.params.maxRuns) :
    deserializeEffect s =
      .ok { slot := some { present := true, runs := counts }, bytes := none,
            results := some (BitVec.ofNat 64 counts.length, BitVec.ofNat 64 used) } :=
  (bind_of_ok (sourceBytes_of hsrc)).trans <|
    (bind_of_ok (parsed_of h)).trans (bind_of_ok (check_true _ hroom))

end

section
variable {s : State} {input : List Byte} (hsrc : s.Source input) (slot : SlotIndex)
include hsrc

theorem exec_deserialize_malformed (h : parse input = none) :
    exec (.deserialize slot) s = .next { s with status := 6 } :=
  exec_of_raise (i := .deserialize slot) (deserializeEffect_malformed hsrc h)

theorem exec_deserialize_of {counts : List Word} {used : Nat} (h : parse input = some (counts, used))
    (hroom : counts.length ≤ s.params.maxRuns) :
    exec (.deserialize slot) s =
      .next { s with
        slots := s.slots.set slot.toNat { present := true, runs := counts }
        res0 := BitVec.ofNat 64 counts.length, res1 := BitVec.ofNat 64 used, status := 0 } :=
  exec_of_ok (i := .deserialize slot) (deserializeEffect_of hsrc h hroom)

end

/-- Settles O55, by the source window, what it parses to, and the room in the slot. -/
theorem deserializeRebuildsTheList : Obligations.DeserializeRebuildsTheList := by
  refine fun s slot => ⟨fun hout => ?_, fun hfits hunwritten => ?_, fun input hsrc =>
    ⟨exec_deserialize_malformed hsrc slot, fun counts used h hfull => ?_,
      fun counts used h hroom => exec_deserialize_of hsrc slot h hroom⟩⟩
  · exact exec_of_raise (i := .deserialize slot) (bind_of_error (sourceBytes_outside (Nat.not_le.mpr hout)))
  · obtain ⟨a, hfault, ha⟩ := sourceBytes_not_written hfits hunwritten
    exact ⟨a, exec_deserialize_source_fault hfault, ha⟩
  · exact exec_of_raise (i := .deserialize slot) (deserializeEffect_full hsrc h hfull)

end Sys2Proof.Machine
end

section
/-! PROOFS. The parser on what the serializer writes (42_wire_codec.md R178 - R180): the whole stream, a stream cut short,
and two streams in a row. -/

namespace Sys2Proof.Machine

/-! ### The groups of the serializer -/

/-- The serializer's headers follow the grammar (30_encoding.md R81 - R83). -/
theorem isHeader_header {p : Pair} (h1 : 1 ≤ p.length) (h64 : p.length ≤ 64) : IsHeader (header p) p := by
  obtain hshort | hlong := le_or_gt p.length 3
  · refine .inl ⟨_, _, header_of_le_three hshort, ?_, by omega⟩
    have h := natOfBits_bitsOfNat 2 p.length
    rw [Nat.mod_eq_of_lt (by omega)] at h
    exact h.symm
  · refine .inr ⟨_, _, _, _, _, _, header_of_four_le hlong, ?_⟩
    have h : natOfBits (bitsOfNat 6 (p.length % 64)) = p.length % 64 := by
      rw [natOfBits_bitsOfNat]
      omega
    obtain hlt | heq := h64.lt_or_eq
    · have hfield := h.trans (Nat.mod_eq_of_lt hlt)
      exact .inl ⟨hfield.trans_ne (by omega), hfield.symm⟩
    · exact .inr ⟨h.trans (by omega), heq⟩

/-- The headers of a count as the serializer writes them, each with its pair. -/
def countHeaders (c : Word) : List (List Bool × Pair) := (pairs c).map (fun p => (header p, p))

theorem headerBits_countHeaders (c : Word) : headerBits (countHeaders c) = countGroup c := by
  rw [headerBits, countHeaders, List.flatMap_map]
  rfl

theorem headerBits_flatten_countHeaders (runs : List Word) :
    headerBits (runs.map countHeaders).flatten = headers runs := by
  induction runs with
  | nil => rfl
  | cons c runs ih => rw [List.map_cons, List.flatten_cons, headerBits_append, ih, headerBits_countHeaders]; rfl

theorem isHeader_of_mem_countHeaders {c : Word} {x : List Bool × Pair} (h : x ∈ countHeaders c) : IsHeader x.1 x.2 := by
  obtain ⟨p, hp, rfl⟩ := List.mem_map.mp h
  exact isHeader_header (one_le_length_of_mem_pairs hp) (length_le_64_of_mem_pairs hp)

theorem groupLength_countHeaders (c : Word) : groupLength (countHeaders c) = 64 := by
  rw [groupLength, countHeaders, List.map_map]
  exact pairs_length_sum c

theorem isGroup_countHeaders (c : Word) : IsGroup (countHeaders c) :=
  ⟨fun _ => isHeader_of_mem_countHeaders, groupLength_countHeaders c⟩

theorem isGroup_of_mem_map_countHeaders (runs : List Word) : ∀ g ∈ runs.map countHeaders, IsGroup g := by
  intro g hg
  obtain ⟨c, -, rfl⟩ := List.mem_map.mp hg
  exact isGroup_countHeaders c

/-- The group of a count spells that count (R173). -/
theorem groupCount_countHeaders (c : Word) : groupCount (countHeaders c) = c := by
  have hbits : (countHeaders c).flatMap (fun x => List.replicate x.2.length x.2.bit) = wordBits c := by
    rw [countHeaders, List.flatMap_map]
    exact pairBits_pairs c
  rw [groupCount, hbits, natOfBits_wordBits, BitVec.ofNat_toNat, BitVec.setWidth_eq]

theorem map_groupCount_countHeaders (runs : List Word) : (runs.map countHeaders).map groupCount = runs := by
  rw [List.map_map]
  exact (List.map_congr_left fun c _ => groupCount_countHeaders c).trans (List.map_id runs)

/-! ### Whole streams -/

/-- The header bits of a list, and then nothing or the padding nibble, parse to the list. -/
theorem parse_headers {runs : List Word} (hne : runs ≠ []) {tail : List Bool} (htail : IsTail tail) {input : List Byte}
    (hq : streamBits input = headers runs ++ tail) : parse input = some (runs, (headers runs).length) := by
  rw [← headerBits_flatten_countHeaders] at hq ⊢
  rw [parse_groups (isGroup_of_mem_map_countHeaders runs) htail hq, map_groupCount_countHeaders]
  exact ParseState.finish_holding hne _

theorem padTail_eq_append_tail (hb : List Bool) : ∃ tail, IsTail tail ∧ padTail hb = hb ++ tail := by
  unfold padTail
  split
  next => exact ⟨_, .inr rfl, rfl⟩
  next => exact ⟨[], .inl rfl, (List.append_nil _).symm⟩

theorem parse_wireBytes {runs : List Word} (hne : runs ≠ []) :
    parse (wireBytes runs) = some (runs, (headers runs).length) := by
  obtain ⟨tail, htail, hpad⟩ := padTail_eq_append_tail (headers runs)
  exact parse_headers hne htail ((streamBits_wireBytes runs).trans hpad)

/-- The next state of a SERIALIZE that succeeds: the wire form stands at DST. -/
theorem exec_serialize_success {s t : State} {slot : SlotIndex} {runs : List Word} (hlist : s.HasList slot runs)
    (h : exec (.serialize slot) s = .next t) (ht : t.status = 0) :
    runs ≠ [] ∧ s.DstOk ∧ (wireBytes runs).length ≤ s.dstCap ∧
    t = { s with
      buf := s.buf.writeBytes s.dst (wireBytes runs)
      res0 := BitVec.ofNat 64 (wireBytes runs).length, res1 := BitVec.ofNat 64 (headers runs).length, status := 0 } := by
  obtain ⟨e, he, rfl⟩ := exec_next_success h ht
  obtain ⟨runs', hlist', hne, hfits, hcap, rfl⟩ := serializeEffect_ok he
  obtain rfl : runs = runs' := congrArg Slot.runs (hlist.symm.trans hlist')
  exact ⟨hne, hfits, hcap, rfl⟩

/-- The bytes that SERIALIZE wrote, as the source window of the next command. -/
theorem source_of_exec_serialize {s t : State} {slot : SlotIndex} {runs : List Word} (hlist : s.HasList slot runs)
    (h : exec (.serialize slot) s = .next t) (ht : t.status = 0) :
    State.Source { t with argA := t.argC, argB := t.res0 } (wireBytes runs) := by
  obtain ⟨-, hfits, hcap, rfl⟩ := exec_serialize_success hlist h ht
  have hn : (BitVec.ofNat 64 (wireBytes runs).length).toNat = (wireBytes runs).length :=
    toNat_ofNat_word (hcap.trans_lt s.argD.isLt)
  exact ⟨(Nat.add_le_add_left (hn.trans_le hcap) s.dst).trans hfits, hn.symm, Memory.read_writeBytes_inside _ _ _⟩

/-- Settles O57: the bytes that SERIALIZE wrote are the source window, and they parse to the list. -/
theorem serializeDeserializeRoundTrip : Obligations.SerializeDeserializeRoundTrip := by
  intro s t a b runs hs _ hb hlist h ht
  have hsrc := source_of_exec_serialize hlist h ht
  obtain ⟨hne, -, -, rfl⟩ := exec_serialize_success hlist h ht
  have hlen : runs.length ≤ s.params.maxRuns := by
    have hok := (hs.2.1.slotAt_ok a).1
    rwa [hlist] at hok
  have hsmall := hs.runs_length_le hlist
  exact ⟨_, exec_deserialize_of hsrc b (parse_wireBytes hne) hlen, rfl, s.slotAt_setSlot_same b _ hb,
    toNat_ofNat_word (by omega), rfl⟩

/-! ### Two streams in a row -/

theorem wireBytes_ne_nil {runs : List Word} (h : runs ≠ []) : wireBytes runs ≠ [] := by
  intro hnil
  have hparse := parse_wireBytes h
  rw [hnil] at hparse
  cases hparse

/-- The parser takes in headers and goes on behind them, whatever follows. -/
theorem parseLoop_headerBits_append {hs : List (List Bool × Pair)} (h : ∀ x ∈ hs, IsHeader x.1 x.2) (q : List Bool)
    (st : ParseState) : parseLoop (headerBits hs ++ q) st = (st.pushAll hs).bind (parseLoop q) := by
  induction hs generalizing st with
  | nil => rfl
  | cons x hs ih =>
    rw [List.forall_mem_cons] at h
    rw [headerBits_cons, List.append_assoc, parseLoop_header h.1, ParseState.pushAll, Option.bind_assoc]
    exact congrArg _ (funext (ih h.2))

/-- The parser behind the header bits of a list: its runs are the counts, and no group is part-filled. -/
theorem parseLoop_headers_append (runs : List Word) (q : List Bool) :
    parseLoop (headers runs ++ q) .start = parseLoop q (.holding [] runs (headers runs).length) := by
  have hheaders : ∀ x ∈ (runs.map countHeaders).flatten, IsHeader x.1 x.2 := by
    intro x hx
    obtain ⟨g, hg, hxg⟩ := List.mem_flatten.mp hx
    exact (isGroup_of_mem_map_countHeaders runs g hg).1 x hxg
  have hpush := ParseState.pushAll_groups (isGroup_of_mem_map_countHeaders runs) [] 0
  rw [map_groupCount_countHeaders, headerBits_flatten_countHeaders, List.nil_append, Nat.zero_add] at hpush
  rw [← headerBits_flatten_countHeaders, parseLoop_headerBits_append hheaders, headerBits_flatten_countHeaders]
  exact (congrArg (Option.bind · (parseLoop q)) hpush).trans (Option.bind_some _ _)

/-- A padding nibble that is not the last nibble is malformed (R175). -/
theorem parseLoop_padNibble_append {q : List Bool} (h : q ≠ []) (st : ParseState) :
    parseLoop (padNibble ++ q) st = none := by
  simp [padNibble, parseLoop, natOfBits, h]

/-- Settles O59: without padding the header bits of the lists stand back to back; padding is malformed before the second
stream. -/
theorem concatenatedStreams : Obligations.ConcatenatedStreams := by
  intro s slot R1 R2 h1 h2 hroom hsrc
  have hq : streamBits (wireBytes R1 ++ wireBytes R2) = padTail (headers R1) ++ padTail (headers R2) := by
    rw [streamBits_append, streamBits_wireBytes, streamBits_wireBytes]
  constructor
  · intro hbyte
    obtain ⟨tail, htail, hpad⟩ := padTail_eq_append_tail (headers R2)
    rw [padTail_of_byte hbyte, hpad, ← List.append_assoc, ← headers_append] at hq
    have hparse := parse_headers (List.append_ne_nil_of_left_ne_nil h1 R2) htail hq
    rw [headers_append, List.length_append] at hparse
    exact ⟨_, exec_deserialize_of hsrc slot hparse hroom, rfl⟩
  · intro hnibble
    have hrest : padTail (headers R2) ≠ [] := by
      rw [← streamBits_wireBytes]
      intro hnil
      exact wireBytes_ne_nil h2 (streamBits_injective (bs := []) hnil)
    have := headers_length_mod R1
    refine exec_deserialize_malformed hsrc slot ?_
    rw [parse, hq, padTail_of_nibble (by omega), List.append_assoc, parseLoop_headers_append,
      parseLoop_padNibble_append hrest]

/-! ### A stream cut short -/

/-- A part of a group does not fill the accumulator. -/
theorem ParseState.pushAll_below {g : List (List Bool × Pair)} {e : List Bool} (h : e.length + groupLength g < 64)
    (counts : List Word) (pos : Nat) :
    (holding e counts pos).pushAll g = some (holding (e ++ groupBits g) counts (pos + (headerBits g).length)) := by
  induction g generalizing e pos with
  | nil => simp [pushAll, headerBits, groupBits]
  | cons x g ih =>
    rw [groupLength_cons] at h
    rw [pushAll, push_below (by omega), Option.bind_some,
      ih (by rw [List.length_append, List.length_replicate]; omega)]
    simp [Nat.add_assoc]

/-- A header is one nibble, or an extended one of two. -/
theorem IsHeader.nibbles {bits : List Bool} {p : Pair} (h : IsHeader bits p) :
    bits.length = 4 ∨ ∃ x y low, low.length = 4 ∧ bits = [p.bit, true, x, y] ++ low := by
  obtain ⟨n1, n0, rfl, -⟩ | ⟨f5, f4, f3, f2, f1, f0, rfl, -⟩ := h
  · exact .inl rfl
  · exact .inr ⟨f5, f4, [f3, f2, f1, f0], rfl, rfl⟩

/-- What is left of a header where a stream is cut between nibbles: nothing, or the first nibble of an extended header. -/
def IsCutHeader (q : List Bool) : Prop := q = [] ∨ ∃ b x y, q = [b, true, x, y]

/-- A cut between the nibbles of a header, before its end. -/
theorem IsHeader.isCutHeader_take {bits : List Bool} {p : Pair} (h : IsHeader bits p) {n : Nat} (hn : n % 4 = 0)
    (hin : n < bits.length) : IsCutHeader (bits.take n) := by
  obtain hlen | ⟨x, y, low, hlow, rfl⟩ := h.nibbles
  · obtain rfl : n = 0 := by omega
    exact .inl rfl
  · rw [List.length_append, hlow] at hin
    obtain rfl | rfl : n = 0 ∨ n = 4 := by simp only [List.length_cons, List.length_nil] at hin; omega
    · exact .inl rfl
    · exact .inr ⟨p.bit, x, y, List.take_left' rfl⟩

/-- A cut between nibbles leaves whole headers and a cut one. -/
theorem take_headerBits {hs : List (List Bool × Pair)} (h : ∀ x ∈ hs, IsHeader x.1 x.2) {n : Nat} (hn : n % 4 = 0)
    (hlen : n < (headerBits hs).length) :
    ∃ kept lost rest, hs = kept ++ lost ∧ lost ≠ [] ∧ (headerBits hs).take n = headerBits kept ++ rest ∧
      IsCutHeader rest := by
  induction hs generalizing n with
  | nil => exact absurd hlen (Nat.not_lt_zero n)
  | cons x hs ih =>
    rw [List.forall_mem_cons] at h
    rw [headerBits_cons] at hlen ⊢
    obtain hin | hout := Nat.lt_or_ge n x.1.length
    · refine ⟨[], x :: hs, x.1.take n, rfl, List.cons_ne_nil _ _, ?_, h.1.isCutHeader_take hn hin⟩
      exact List.take_append_of_le_length hin.le
    · have hmod : x.1.length % 4 = 0 := by
        obtain hx | ⟨_, _, _, hlow, hx⟩ := h.1.nibbles
        · omega
        · simp [hx, hlow]
      rw [List.length_append] at hlen
      obtain ⟨kept, lost, rest, rfl, hne, htake, hrest⟩ := ih h.2 (n := n - x.1.length) (by omega) (by omega)
      refine ⟨x :: kept, lost, rest, rfl, hne, ?_, hrest⟩
      rw [List.take_append, List.take_of_length_le hout, htake, headerBits_cons, List.append_assoc]

theorem groupBits_length (g : List (List Bool × Pair)) : (groupBits g).length = groupLength g := by
  simp [groupBits, groupLength, List.length_flatMap]

/-- A count group that is cut between nibbles: less than 64 bits of the count are left, and a cut header. -/
theorem take_countGroup (c : Word) {n : Nat} (hn : n % 4 = 0) (hlen : n < (countGroup c).length) :
    ∃ kept rest, (∀ x ∈ kept, IsHeader x.1 x.2) ∧ groupLength kept < 64 ∧
      (countGroup c).take n = headerBits kept ++ rest ∧ IsCutHeader rest := by
  rw [← headerBits_countHeaders] at hlen ⊢
  obtain ⟨kept, lost, rest, hsplit, hlost, htake, hrest⟩ :=
    take_headerBits (fun _ => isHeader_of_mem_countHeaders) hn hlen
  have hheaders : ∀ x ∈ kept ++ lost, IsHeader x.1 x.2 := fun _ hx => isHeader_of_mem_countHeaders (hsplit ▸ hx)
  rw [List.forall_mem_append] at hheaders
  refine ⟨kept, rest, hheaders.1, ?_, htake, hrest⟩
  have hsum : groupLength kept + groupLength lost = 64 := by
    rw [← groupLength_countHeaders c, hsplit, groupLength, groupLength, groupLength, List.map_append, List.sum_append]
  have := groupLength_pos hheaders.2 hlost
  omega

/-- A cut header does not end a stream, and neither does a part-filled group or an empty list of counts. -/
theorem parseLoop_cutHeader {q : List Bool} (h : IsCutHeader q) {st : ParseState}
    (hend : q = [] → st.filled ≠ 0 ∨ st.counts = []) : parseLoop q st = none := by
  obtain rfl | ⟨b, x, y, rfl⟩ := h
  · exact if_pos (hend rfl)
  · rfl

/-- A stream whose last group is cut between nibbles is malformed, unless the whole group is cut off and there are runs
before it. -/
theorem parseLoop_cutGroup {init : List Word} {last : Word} {n : Nat} (hn : n % 4 = 0)
    (hlen : n < (countGroup last).length) (h : n = 0 → init = []) :
    parseLoop (headers init ++ (countGroup last).take n) .start = none := by
  obtain ⟨kept, rest, hkept, hpart, htake, hrest⟩ := take_countGroup last hn hlen
  rw [htake, parseLoop_headers_append, parseLoop_headerBits_append hkept,
    ParseState.pushAll_below (e := []) ((Nat.zero_add _).trans_lt hpart), Option.bind_some, List.nil_append]
  refine parseLoop_cutHeader hrest ?_
  rintro rfl
  by_cases hnil : kept = []
  · have hlen0 := congrArg List.length htake
    rw [hnil, List.length_take_of_le hlen.le] at hlen0
    exact .inr (h hlen0)
  · have hpos := groupLength_pos hkept hnil
    exact .inl ((groupBits_length kept).trans_ne hpos.ne')

theorem streamBits_dropLast (bs : List Byte) : streamBits bs.dropLast = (streamBits bs).take (8 * (bs.length - 1)) := by
  obtain rfl | ⟨init, b, rfl⟩ := List.eq_nil_or_concat' bs
  · rfl
  · rw [List.dropLast_concat, streamBits_append, List.take_left' (by simp [streamBits_length])]

/-- A wire form without its last byte: the last group is cut between nibbles, with at most 8 bits of it cut off. -/
theorem streamBits_wireBytes_dropLast (init : List Word) (last : Word) :
    ∃ n, n % 4 = 0 ∧ n < (countGroup last).length ∧ (countGroup last).length ≤ n + 8 ∧
      ((headers init).length + n) % 8 = 0 ∧
      streamBits (wireBytes (init ++ [last])).dropLast = headers init ++ (countGroup last).take n := by
  obtain ⟨tail, -, hpad⟩ := padTail_eq_append_tail (headers (init ++ [last]))
  have hlast : headers [last] = countGroup last := List.append_nil _
  have hbits : (headers (init ++ [last])).length = (headers init).length + (countGroup last).length := by
    rw [headers_append, hlast, List.length_append]
  have hwire : 8 * (wireBytes (init ++ [last])).length = (headers (init ++ [last])).length ∨
      8 * (wireBytes (init ++ [last])).length = (headers (init ++ [last])).length + 4 := by
    rw [wireBytes_length]
    split <;> omega
  have hmod := headers_length_mod (init ++ [last])
  have hinit := headers_length_mod init
  have hgroup := (wireSizeBounds.1 last).1
  refine ⟨8 * ((wireBytes (init ++ [last])).length - 1) - (headers init).length, by omega, by omega, by omega, by omega,
    ?_⟩
  rw [streamBits_dropLast, streamBits_wireBytes, hpad, List.take_append_of_le_length (by omega), headers_append, hlast,
    List.take_append, List.take_of_length_le (by omega)]

/-- Settles O58: what is left of the last group is no whole group; only where that is nothing at all, behind other runs,
does the stream parse. -/
theorem truncationIsDetectedButForOneCase : Obligations.TruncationIsDetectedButForOneCase := by
  intro s slot init last hroom hsrc
  obtain ⟨n, hn, hlen, hcut, hbyte, hq⟩ := streamBits_wireBytes_dropLast init last
  obtain ⟨hge, -, height⟩ := wireSizeBounds.1 last
  refine ⟨fun hlost => ?_, fun ⟨hne, hflat, hwhole⟩ => ?_⟩
  · refine exec_deserialize_malformed hsrc slot ?_
    rw [parse, hq]
    exact parseLoop_cutGroup hn hlen fun h0 =>
      not_not.mp fun hne => hlost ⟨hne, height.mp (by omega), by omega⟩
  · have h8 := height.mpr hflat
    obtain rfl : n = 0 := by omega
    exact exec_deserialize_of hsrc slot (parse_headers hne (.inl rfl) hq) (by omega)

end Sys2Proof.Machine
end

section
/-! PROOFS. Precise failure (60_exceptions.md R210, R212): an error leaves STATUS alone behind, and no command looks at
STATUS. -/

namespace Sys2Proof.Machine

/-- A command word that reports an error, a legal one or not, has written STATUS alone. -/
theorem execute_next_failure {w : Word} {s t : State} (h : execute w s = .next t) (ht : t.status ≠ 0) :
    ∃ e : ErrorCode, t = s.setStatus e.statusWord := by
  obtain ⟨i, -, hx⟩ | ⟨_, -, hx⟩ := execute_cases w s
  · obtain ⟨e, -, rfl⟩ := exec_next_failure (hx.symm.trans h) ht
    exact ⟨e, rfl⟩
  · exact ⟨.illegalCommand, (Host.Outcome.next.inj (hx.symm.trans h)).symm⟩

/-- Settles O24: the write puts its word in CMD and executes it, and an error then writes STATUS alone. -/
theorem errorChangesOnlyCmdAndStatus : Obligations.ErrorChangesOnlyCmdAndStatus := by
  intro s t rest w hb hin h ht
  rw [step_cmdWrite hb hin] at h
  exact execute_next_failure h ht

theorem effectOf_setStatus (i : Instr) (s : State) (v : Word) : effectOf i (s.setStatus v) = effectOf i s := by
  cases i <;> rfl

/-- A commit overwrites STATUS. -/
theorem commit_setStatus (i : SlotIndex) (e : Effect) (s : State) (v : Word) :
    commit i e (s.setStatus v) = commit i e s := by
  obtain ⟨slot, bytes, results⟩ := e
  cases slot <;> cases bytes <;> cases results <;> rfl

/-- Settles O29: the effect or the error is computed without STATUS, and each of them overwrites STATUS. -/
theorem statusDoesNotAffectCommands : Obligations.StatusDoesNotAffectCommands := by
  intro i s v
  change exec i (s.setStatus v) = exec i s
  simp only [exec_eq_runCommand, runCommand, effectOf_setStatus]
  cases effectOf i s with
  | ok e => exact congrArg Host.Outcome.next (commit_setStatus i.slot e s v)
  | error halt => cases halt <;> rfl

end Sys2Proof.Machine
end

section
/-! PROOFS. What stops the model (60_exceptions.md R213, 10_state.md R44): while BUSY = 0, only the read of a BUF byte
that holds no value. -/

namespace Sys2Proof.Machine

/-- If the outcome is no next state, it is the fault for an address below BUF_BYTES whose byte in `s` holds no value. -/
def StopsOnlyAtUnwritten (s : State) (o : Host.Outcome State Fault Refusal) : Prop :=
  (∀ r, o ≠ .refused r) ∧
    ∀ f, o = .fault f → ∃ a, f = .unwrittenByte a ∧ a < s.params.bufBytes ∧ s.buf.read a = none

@[simp] theorem stopsOnlyAtUnwritten_next (s t : State) : StopsOnlyAtUnwritten s (.next t) := ⟨nofun, nofun⟩

theorem stopsOnlyAtUnwritten_fault {s : State} {a : Nat} (ha : a < s.params.bufBytes) (hr : s.buf.read a = none) :
    StopsOnlyAtUnwritten s (.fault (.unwrittenByte a)) := by
  refine ⟨nofun, ?_⟩
  rintro _ ⟨⟩
  exact ⟨a, rfl, ha, hr⟩

/-! ### Commands -/

theorem bind_fault_cases {α β : Type} {x : Except Halt α} {g : α → Except Halt β} {f : Fault}
    (h : x >>= g = .error (.fault f)) :
    x = .error (.fault f) ∨ ∃ a, x = .ok a ∧ g a = .error (.fault f) := by
  cases x with
  | ok a => exact .inr ⟨a, rfl, h⟩
  | error halt => exact .inl (congrArg Except.error (Except.error.inj h))

/-- Where nothing after the first part of a computation can fault, the first part has. -/
theorem fault_of_bind {α β : Type} {x : Except Halt α} {g : α → Except Halt β} {f : Fault}
    (hg : ∀ a, NeverFaults (g a)) (h : x >>= g = .error (.fault f)) : x = .error (.fault f) := by
  obtain hx | ⟨a, -, ha⟩ := bind_fault_cases h
  · exact hx
  · exact absurd ha (hg a f)

theorem neverFaults_parsed (input : List Byte) : NeverFaults (parsed input) := by
  cases hp : parse input with
  | none =>
    rw [parsed_malformed hp]
    nofun
  | some r =>
    rw [parsed_of hp]
    nofun

theorem encodeEffect_fault {slot : SlotIndex} {s : State} {f : Fault} (h : encodeEffect slot s = .error (.fault f)) :
    s.Live slot ∧ sourceBytes s = .error (.fault f) := by
  obtain hl | ⟨runs, hl, hrest⟩ := bind_fault_cases h
  · exact absurd hl (neverFaults_liveListOf s slot f)
  · obtain ⟨hat, hne⟩ := liveListOf_ok hl
    have hlive : s.Live slot := (congrArg Slot.condition hat).trans (Slot.condition_live hne)
    exact ⟨hlive, fault_of_bind (fun _ => neverFaults_bind (neverFaults_check _ _) fun _ => neverFaults_ok _) hrest⟩

theorem deserializeEffect_fault {s : State} {f : Fault} (h : deserializeEffect s = .error (.fault f)) :
    sourceBytes s = .error (.fault f) :=
  fault_of_bind (fun input => neverFaults_bind (neverFaults_parsed input) fun _ =>
    neverFaults_bind (neverFaults_check _ _) fun _ => neverFaults_ok _) h

/-- A command faults in its source window alone; only DESERIALIZE, and ENCODE of a LIVE slot, read one. -/
theorem effectOf_fault {i : Instr} {s : State} {f : Fault} (h : effectOf i s = .error (.fault f)) :
    sourceBytes s = .error (.fault f) ∧ ∃ slot, (i = .encode slot ∧ s.Live slot) ∨ i = .deserialize slot := by
  cases i with
  | encode slot =>
    obtain ⟨hlive, hsrc⟩ := encodeEffect_fault h
    exact ⟨hsrc, slot, .inl ⟨rfl, hlive⟩⟩
  | deserialize slot => exact ⟨deserializeEffect_fault h, slot, .inr rfl⟩
  | create slot | destroy slot | append slot | popfront slot | size slot | total slot | decode slot
  | serialize slot => exact absurd h (neverFaults_effectOf (by simp) s f)

/-- A window that fits faults at an unwritten byte in it. -/
theorem sourceBytes_fault {s : State} {f : Fault} (h : sourceBytes s = .error (.fault f)) :
    ∃ a, f = .unwrittenByte a ∧ a < s.params.bufBytes ∧ s.buf.read a = none := by
  obtain ⟨bs, hx, -⟩ | ⟨hx, -⟩ | ⟨a, hx, hfits, hread⟩ := sourceBytes_cases s
  · cases hx.symm.trans h
  · cases hx.symm.trans h
  · cases hx.symm.trans h
    obtain ⟨-, hlt, hnone⟩ := Memory.readBytes_error _ _ _ _ hread
    exact ⟨a, rfl, Nat.lt_of_lt_of_le hlt hfits, hnone⟩

theorem exec_stopsOnlyAtUnwritten (i : Instr) (s : State) : StopsOnlyAtUnwritten s (exec i s) := by
  refine ⟨exec_not_refused i s, fun f h => ?_⟩
  obtain ⟨e, -, hx⟩ | ⟨e, -, hx⟩ | ⟨f', hf, hx⟩ := exec_cases i s
  · cases hx.symm.trans h
  · cases hx.symm.trans h
  · cases hx.symm.trans h
    exact sourceBytes_fault (effectOf_fault hf).1

/-! ### Transactions and inputs -/

theorem execute_stopsOnlyAtUnwritten (w : Word) (s : State) : StopsOnlyAtUnwritten s (execute w s) := by
  obtain ⟨i, -, h⟩ | ⟨e, -, h⟩ := execute_cases w s
  · exact h ▸ exec_stopsOnlyAtUnwritten i s
  · simp [h]

theorem regWrite_stopsOnlyAtUnwritten (off : Nat) (v : Word) (s : State) :
    StopsOnlyAtUnwritten s (regWrite off v s) := by
  by_cases hoff : registerAt off = some .cmd
  · rw [regWrite_cmd v s hoff]
    exact execute_stopsOnlyAtUnwritten v (s.writeReg .cmd v)
  · obtain ⟨t, h, -⟩ := regWrite_not_cmd off v s hoff
    simp [h]

theorem bufRead_stopsOnlyAtUnwritten (a : Nat) (s : State) : StopsOnlyAtUnwritten s (bufRead a s) := by
  obtain ha | ha := Nat.lt_or_ge a s.params.bufBytes
  · cases hr : s.buf.read a with
    | some b => simp [bufRead_written ha hr]
    | none => exact bufRead_unwritten ha hr ▸ stopsOnlyAtUnwritten_fault ha hr
  · simp [bufRead_outside ha]

theorem transact_stopsOnlyAtUnwritten (t : Transaction) (s : State) : StopsOnlyAtUnwritten s (transact t s) := by
  cases t with
  | regWrite off v => exact regWrite_stopsOnlyAtUnwritten off v (s.setReply .nothing)
  | regRead off => exact stopsOnlyAtUnwritten_next s _
  | bufWrite a b => exact stopsOnlyAtUnwritten_next s _
  | bufRead a => exact bufRead_stopsOnlyAtUnwritten a s

theorem step_stopsOnlyAtUnwritten {s : State} (hb : s.busy = false) : StopsOnlyAtUnwritten s (step s) := by
  cases hin : s.inputs with
  | nil => simp [step_no_input hin]
  | cons i rest =>
    cases i with
    | transaction t =>
      rw [step_transaction hin hb]
      exact transact_stopsOnlyAtUnwritten t (s.setInputs rest)
    | reset =>
      rw [step_input hin]
      exact stopsOnlyAtUnwritten_next s _

/-- Settles O18: the invariant has BUSY = 0, so the next input happens, and it stops at an unwritten byte alone. -/
theorem onlyUnwrittenBytesStopTheModel : Obligations.OnlyUnwrittenBytesStopTheModel := by
  rintro s ⟨-, -, -, hstatus⟩
  exact step_stopsOnlyAtUnwritten hstatus.not_busy

end Sys2Proof.Machine
end

section
/-! PROOFS. The reset input, waiting and BUSY (70_reset_and_hazards.md R230, R231, R233, R240). -/

namespace Sys2Proof.Machine

/-- Settles O12: the step is `resetBlock`, which asks for nothing in the state but its parameters and inputs. -/
theorem resetInputResetsTheBlock : Obligations.ResetInputResetsTheBlock := fun _ _ h =>
  ⟨_, step_input h, rfl, rfl, rfl, rfl, rfl, rfl, rfl, rfl, rfl, rfl, rfl, fun _ => rfl⟩

/-- Settles O13, by the step with no input. -/
theorem noInputLeavesTheBlockWaiting : Obligations.NoInputLeavesTheBlockWaiting := fun _ h => step_no_input h

theorem takeTransaction_busy {s : State} {t : Transaction} (hb : s.busy = true) (ht : t ≠ .regRead 0x38) :
    takeTransaction t s = .fault .busyAccess := by
  have hreads : t.readsStatus = false := decide_eq_false ht
  simp [takeTransaction, hb, hreads]

/-- A read of STATUS is taken whatever BUSY is. -/
theorem takeTransaction_readStatus (s : State) :
    takeTransaction (.regRead 0x38) s = .next (s.setReply (.word s.status)) := by
  have hreads : Transaction.readsStatus (.regRead 0x38) = true := rfl
  simp only [takeTransaction, hreads, Bool.not_true, Bool.and_false, Bool.false_eq_true, if_false]
  rfl

/-- Settles O19: taking the input away keeps BUSY, and then the two kinds of transaction are told apart. -/
theorem busyBlocksOtherTransactions : Obligations.BusyBlocksOtherTransactions := by
  refine fun s t rest hb hin => ⟨fun ht => ?_, ?_⟩
  · exact (step_input hin).trans (takeTransaction_busy hb ht)
  · rintro rfl
    exact (step_input hin).trans (takeTransaction_readStatus (s.setInputs rest))

end Sys2Proof.Machine
end

section
/-! PROOFS. The polarity of the bits that POPFRONT leaves (70_reset_and_hazards.md R243). -/

namespace Sys2Proof.Machine

/-- The polarity of the first run decides that of all the others. -/
theorem expandFrom_not (p : Bool) (runs : List Word) : expandFrom (!p) runs = (expandFrom p runs).map not := by
  induction runs generalizing p with
  | nil => rfl
  | cons r runs ih => rw [expandFrom, expandFrom, ih, List.map_append, List.map_replicate]

theorem runBits_cons (v : Word) (rest : List Word) :
    runBits (v :: rest) = List.replicate v.toNat false ++ (runBits rest).map not :=
  congrArg (List.replicate v.toNat false ++ ·) (expandFrom_not false rest)

theorem slotAt_of_exec_popfront {s t : State} {slot : SlotIndex} {v : Word} {rest : List Word} (hs : s.HasSlot slot)
    (hlist : s.HasList slot (v :: rest)) (h : exec (.popfront slot) s = .next t) :
    t.slotAt slot = { present := true, runs := rest } := by
  have hpop := exec_of_ok (i := .popfront slot) (popfrontEffect_of hlist)
  obtain rfl := Host.Outcome.next.inj (hpop.symm.trans h)
  exact s.slotAt_setSlot_same slot _ hs

/-- Settles O48: the slot holds the runs after the first, which started with polarity 1 and now start with 0. -/
theorem poppedListHasComplementedBits : Obligations.PoppedListHasComplementedBits := by
  intro s t slot v rest hs hlist h
  rw [slotAt_of_exec_popfront hs hlist h]
  exact runBits_cons v rest

end Sys2Proof.Machine
end

section
/-! PROOFS. Runs that read no unwritten byte (70_reset_and_hazards.md R232, R251): each of their steps answers a next
state. -/

namespace Sys2Proof.Machine

/-- A source window that faults fits in BUF and has an unwritten byte. -/
theorem not_written_of_sourceBytes_fault {s : State} {f : Fault} (h : sourceBytes s = .error (.fault f)) :
    s.SrcOk ∧ ¬s.Written s.src s.srcLen := by
  obtain ⟨bs, hx, -⟩ | ⟨hx, -⟩ | ⟨a, -, hfits, hread⟩ := sourceBytes_cases s
  · cases hx.symm.trans h
  · cases hx.symm.trans h
  · obtain ⟨hle, hlt, hnone⟩ := Memory.readBytes_error _ _ _ _ hread
    refine ⟨hfits, fun hw => ?_⟩
    have hsome := hw (a - s.src) (by omega)
    rw [Nat.add_sub_cancel' hle, hnone] at hsome
    cases hsome

theorem exec_next_of_written {i : Instr} {s : State}
    (hw : s.SrcOk → ∀ slot, i = .deserialize slot ∨ (i = .encode slot ∧ s.Live slot) → s.Written s.src s.srcLen) :
    ∃ t, exec i s = .next t := by
  obtain ⟨e, -, h⟩ | ⟨e, -, h⟩ | ⟨f, hf, -⟩ := exec_cases i s
  · exact ⟨_, h⟩
  · exact ⟨_, h⟩
  · obtain ⟨hsrc, slot, hi⟩ := effectOf_fault hf
    obtain ⟨hfits, hnot⟩ := not_written_of_sourceBytes_fault hsrc
    exact absurd (hw hfits slot hi.symm) hnot

theorem execute_next_of_written {w : Word} {s : State}
    (hw : s.SrcOk → ∀ slot, decode s.params w = .ok (.deserialize slot) ∨
      (decode s.params w = .ok (.encode slot) ∧ s.Live slot) → s.Written s.src s.srcLen) :
    ∃ t, execute w s = .next t := by
  obtain ⟨i, hdec, h⟩ | ⟨_, -, h⟩ := execute_cases w s
  · rw [h]
    exact exec_next_of_written (by simpa only [hdec, Except.ok.injEq] using hw)
  · exact ⟨_, h⟩

theorem bufRead_next_of_written {a : Nat} {s : State} (hw : a < s.params.bufBytes → s.Written a 1) :
    ∃ t, bufRead a s = .next t := by
  obtain ha | ha := Nat.lt_or_ge a s.params.bufBytes
  · obtain ⟨b, hb⟩ := Option.isSome_iff_exists.mp (hw ha 0 Nat.one_pos)
    exact ⟨_, bufRead_written ha hb⟩
  · exact ⟨_, bufRead_outside ha⟩

/-- While BUSY = 0 a step answers a next state if its input reads no unwritten byte; BUF is read by a BufRead and by
the command that a CMD write runs. -/
theorem step_next_of_readsWritten {s : State} (hb : s.busy = false) (h : s.NextReadsWritten) :
    ∃ t, step s = .next t := by
  obtain ⟨hread, hcmd⟩ := h
  cases hin : s.inputs with
  | nil => exact ⟨s, step_no_input hin⟩
  | cons i rest =>
    cases i with
    | reset => exact ⟨_, step_input hin⟩
    | transaction t =>
      rw [step_transaction hin hb]
      cases t with
      | regWrite off v =>
        by_cases hoff : registerAt off = some .cmd
        · obtain rfl := offset_of_registerAt off .cmd hoff
          rw [transact, regWrite_cmd v _ hoff]
          exact execute_next_of_written fun hfits slot => hcmd v rest slot hin hfits
        · obtain ⟨t, ht, -⟩ := regWrite_not_cmd off v ((s.setInputs rest).setReply .nothing) hoff
          exact ⟨t, ht⟩
      | regRead off => exact ⟨_, rfl⟩
      | bufWrite a b => exact ⟨_, rfl⟩
      | bufRead a => exact bufRead_next_of_written (s := s.setInputs rest) (hread a rest hin)

theorem State.Inv.not_busy {s : State} (h : s.Inv) : s.busy = false := by
  obtain ⟨-, -, -, hstatus⟩ := h
  exact hstatus.not_busy

theorem safeFor_succ {s s' : State} {n : Nat} (h : step s = .next s') : SafeFor (n + 1) s ↔ SafeFor n s' := by
  rw [SafeFor, h]

theorem run_succ {s s' : State} {n : Nat} (h : step s = .next s') : core.run (n + 1) s = core.run n s' := by
  have hcore : core.step s = .next s' := h
  simp only [Host.Core.run, hcore]

/-- Settles O21, by induction on the number of steps: each one answers a next state, which has used up one input and
keeps the invariant. -/
theorem safeRunsComplete : Obligations.SafeRunsComplete := by
  intro n
  induction n with
  | zero => exact fun s hs _ => ⟨trivial, s, rfl, rfl, hs⟩
  | succ n ih =>
    rintro s hs ⟨hnext, hrest⟩
    obtain ⟨s', hstep⟩ := step_next_of_readsWritten hs.not_busy hnext
    obtain ⟨hinputs, -⟩ := stepUsesUpOneInput s s' hstep
    obtain ⟨hsafe, t, hrun, ht, hinv⟩ := ih s' (stepKeepsTheInvariant s s' hs hstep) (hrest s' hstep)
    refine ⟨(safeFor_succ hstep).mpr hsafe, t, (run_succ hstep).trans hrun, ?_, hinv⟩
    rw [ht, hinputs, List.drop_tail]

end Sys2Proof.Machine
end
